-- ==== Sys2Proof/Word.lean ====
section
/-!
DEFINITION. The words and the small records the whole model is written over (spec/00_scope.md R5, R8).

Bits are numbered from 0 at the least significant bit and every value is unsigned (R8).
-/

namespace Sys2Proof

/-- Eight bits: a configuration byte, or a command operand of R33. -/
abbrev Byte := BitVec 8

/-- Sixteen bits: a vendor or device identifier, or one half of a dword. -/
abbrev Half := BitVec 16

/-- Thirty-two bits: one configuration dword, the configuration-address value, or one I/O transfer (R5). -/
abbrev Dword := BitVec 32

/-- An I/O port number: 16 bits (R5, R50). -/
abbrev Port := BitVec 16

/-- The 68-bit command word of R83. -/
abbrev CommandWord := BitVec 68

/-- The six fields of one command (R33, R83): what the command channel carries and what the CMD_* registers
latch (R25). -/
structure Command where
  op : BitVec 4
  bus : Byte
  dev : Byte
  fn : Byte
  arg : Byte
  wdata : Dword
  deriving DecidableEq, Repr, Inhabited

/-- An enumerator position (R21): ENUM_BUS has 9 bits, because 256 is the end sentinel. -/
structure Position where
  bus : BitVec 9
  dev : BitVec 5
  fn : BitVec 3
  deriving DecidableEq, Repr, Inhabited

/-- The Common Header registers HDR_* (R22). -/
structure Header where
  vendor : Half
  device : Half
  progIf : Byte
  subclass : Byte
  classCode : Byte
  headerType : Byte
  deriving DecidableEq, Repr, Inhabited

end Sys2Proof
end

