-- ==== Sys2Proof/Syntax.lean ====
section
/-!
DEFINITION. The commands of the block: one constructor per row of spec/opcode_table.json (R84), with the operand
fields the command reads (R86). A field the command ignores is no argument.
-/

namespace Sys2Proof

/-- The nine commands of R84. `dev` and `fn` are 8-bit operands that the codec masks (R86, R100); `off` and `index`
are the `arg` field. -/
inductive Instr where
  /-- ENCODE bus, dev, fn, off (R101). -/
  | encodeAddr (bus dev fn off : Byte)
  /-- RD_DWORD bus, dev, fn, off (R112). -/
  | rdDword (bus dev fn off : Byte)
  /-- WR_DWORD bus, dev, fn, off, value (R113). -/
  | wrDword (bus dev fn off : Byte) (value : Dword)
  /-- RD_WORD bus, dev, fn, off (R114). -/
  | rdWord (bus dev fn off : Byte)
  /-- RD_BYTE bus, dev, fn, off (R115). -/
  | rdByte (bus dev fn off : Byte)
  /-- ENUM_INIT (R144). -/
  | enumInit
  /-- ENUM_NEXT (R145). -/
  | enumNext
  /-- RD_BAR bus, dev, fn, index (R181). -/
  | rdBar (bus dev fn index : Byte)
  /-- WR_BAR bus, dev, fn, index, value (R182). -/
  | wrBar (bus dev fn index : Byte) (value : Dword)
  deriving DecidableEq, Repr

end Sys2Proof
end

