-- ==== Sys2Proof/WellFormed.lean ====
section
/-!
DEFINITION. Well-formed assembly lines (R88). Every value of every operand field of a command is legal (R85), and the
fields of `Instr` have the operands' own widths (R83), so every `Instr` is well formed. What can be ill formed is a
line of the assembly syntax: its operands are numbers of any size, and there can be too many or too few of them.
-/

namespace Sys2Proof

/-- The mnemonics of R88, in the order of R84. -/
inductive Mnemonic where
  | ENCODE | RD_DWORD | WR_DWORD | RD_WORD | RD_BYTE | ENUM_INIT | ENUM_NEXT | RD_BAR | WR_BAR
  deriving DecidableEq, Repr

/-- One line of the assembly syntax: a mnemonic and its operands in the order bus, dev, fn, arg, wdata (R88). -/
structure AsmLine where
  mnemonic : Mnemonic
  operands : List Nat
  deriving DecidableEq, Repr

/-- The bound of each operand a mnemonic takes (R86, R88): bus, dev, fn and arg are 0..255, a value is
0..0xFFFFFFFF. -/
def Mnemonic.bounds : Mnemonic → List Nat
  | .ENCODE | .RD_DWORD | .RD_WORD | .RD_BYTE | .RD_BAR => [0xFF, 0xFF, 0xFF, 0xFF]
  | .WR_DWORD | .WR_BAR => [0xFF, 0xFF, 0xFF, 0xFF, 0xFFFFFFFF]
  | .ENUM_INIT | .ENUM_NEXT => []

/-- A line has exactly the operands its mnemonic takes (R88). -/
def AsmLine.countOk (l : AsmLine) : Bool :=
  l.operands.length == l.mnemonic.bounds.length

/-- Every operand fits its field (R88). -/
def AsmLine.operandsFit (l : AsmLine) : Bool :=
  (l.operands.zip l.mnemonic.bounds).all fun p => p.1 ≤ p.2

/-- The assembler accepts exactly the well-formed lines (R88). -/
def AsmLine.wellFormed (l : AsmLine) : Bool :=
  l.countOk && l.operandsFit

end Sys2Proof
end

