-- ==== Sys2Proof/Decode.lean ====
section
/-!
DEFINITION. The command word and the opcode map (spec/30_encoding.md R83 to R86): decoding, total on every 68-bit
word and rejecting by name, and after it the encoder.
-/

namespace Sys2Proof

/-- The fields of a command word: `CW = {op, bus, dev, fn, arg, wdata}` (R83). -/
def Command.ofWord (w : CommandWord) : Command where
  op := w.extractLsb' 64 4
  bus := w.extractLsb' 56 8
  dev := w.extractLsb' 48 8
  fn := w.extractLsb' 40 8
  arg := w.extractLsb' 32 8
  wdata := w.extractLsb' 0 32

/-- The command word of six fields (R83). -/
def Command.toWord (c : Command) : CommandWord :=
  c.op ++ c.bus ++ c.dev ++ c.fn ++ c.arg ++ c.wdata

/-- Why a command word is no command: its opcode is unassigned, 0x0 or 0xA..0xF (R84, R85). -/
inductive DecodeError where
  | unassignedOpcode (op : BitVec 4)
  deriving DecidableEq, Repr

/-- The command that six fields stand for. The `op` field alone selects it (R84), and a field the command does not
use is ignored (R85, R86). -/
def Command.decode (c : Command) : Except DecodeError Instr :=
  match c.op with
  | 0x1#4 => .ok (.encodeAddr c.bus c.dev c.fn c.arg)
  | 0x2#4 => .ok (.rdDword c.bus c.dev c.fn c.arg)
  | 0x3#4 => .ok (.wrDword c.bus c.dev c.fn c.arg c.wdata)
  | 0x4#4 => .ok (.rdWord c.bus c.dev c.fn c.arg)
  | 0x5#4 => .ok (.rdByte c.bus c.dev c.fn c.arg)
  | 0x6#4 => .ok .enumInit
  | 0x7#4 => .ok .enumNext
  | 0x8#4 => .ok (.rdBar c.bus c.dev c.fn c.arg)
  | 0x9#4 => .ok (.wrBar c.bus c.dev c.fn c.arg c.wdata)
  | op => .error (.unassignedOpcode op)

/-- Decoding a command word (R83, R84). -/
def decode (w : CommandWord) : Except DecodeError Instr :=
  (Command.ofWord w).decode

/-- The instruction of a table word (bit 0 is the least significant bit of the command word, R83). A command word
has 68 bits, so a number that needs more is none. -/
def decodeTableWord (nbits w : Nat) : Option Instr :=
  let v := w % 2 ^ nbits
  if v < 2 ^ 68 then
    match decode (BitVec.ofNat 68 v) with
    | .ok i => some i
    | .error _ => none
  else none

/-- The mnemonic of a command (R84). -/
def Instr.mnemonic : Instr → Mnemonic
  | .encodeAddr .. => .ENCODE
  | .rdDword .. => .RD_DWORD
  | .wrDword .. => .WR_DWORD
  | .rdWord .. => .RD_WORD
  | .rdByte .. => .RD_BYTE
  | .enumInit => .ENUM_INIT
  | .enumNext => .ENUM_NEXT
  | .rdBar .. => .RD_BAR
  | .wrBar .. => .WR_BAR

/-- The opcode map of R84, by mnemonic. -/
def Mnemonic.opcode : Mnemonic → BitVec 4
  | .ENCODE => 0x1
  | .RD_DWORD => 0x2
  | .WR_DWORD => 0x3
  | .RD_WORD => 0x4
  | .RD_BYTE => 0x5
  | .ENUM_INIT => 0x6
  | .ENUM_NEXT => 0x7
  | .RD_BAR => 0x8
  | .WR_BAR => 0x9

/-- The six fields of a command; every ignored field is 0 (R88). -/
def Instr.command (i : Instr) : Command :=
  let op := i.mnemonic.opcode
  match i with
  | .encodeAddr b d f o | .rdDword b d f o | .rdWord b d f o | .rdByte b d f o | .rdBar b d f o =>
    { op, bus := b, dev := d, fn := f, arg := o, wdata := 0 }
  | .wrDword b d f o v | .wrBar b d f o v => { op, bus := b, dev := d, fn := f, arg := o, wdata := v }
  | .enumInit | .enumNext => { op, bus := 0, dev := 0, fn := 0, arg := 0, wdata := 0 }

/-- The command word of a command (R83, R88). -/
def encode (i : Instr) : CommandWord :=
  i.command.toWord

end Sys2Proof
end

