-- ==== Sys2Proof/Config.lean ====
section
/-!
DEFINITION. What one build of the block fixes (spec/00_scope.md R5), and the free values: what the spec leaves to
"any value" (spec/93_implementation_defined.md). A free value is an opaque constant applied to the count of edges
seen (`State.tick`), so no proof can use what it is.
-/

namespace Sys2Proof.Config

/-- The configuration-address port (R5, R60). -/
def addrPort : Port := 0xCF8

/-- The configuration-data port (R5, R60). -/
def dataPort : Port := 0xCFC

/-- The end sentinel's bus number, one past the last bus (R5, R21). -/
def sentinelBus : BitVec 9 := 256

/-- The sentinel vendor ID: no function responds (R5, R22). -/
def sentinelVendor : Half := 0xFFFF

/-- The offset of BAR 0 and the distance between two BARs (R5, R180). -/
def barBase : Byte := 0x10

def barStride : Byte := 4

/-- The dword offsets one probe reads, in order (R143). -/
def headerOffset0 : Byte := 0x00

def headerOffset2 : Byte := 0x08

def headerOffset3 : Byte := 0x0C

/-- The most probes, and the most I/O transactions, of one ENUM_NEXT (R149). -/
def maxProbes : Nat := 8192

def maxTransactions : Nat := 6 * maxProbes

/-- FREE (R38, R228, I5): what the enum_* outputs show while CTRL = BUSY. Assumption 6. -/
opaque busyPosition : Nat → Position

/-- FREE (R38, R228, I5): what the hdr_* outputs show while CTRL = BUSY. Assumption 6. -/
opaque busyHeader : Nat → Header

/-- FREE (R36, I15): io_req_wdata when nothing is offered. Assumption 7. -/
opaque idleWdata : Nat → Dword

/-- FREE (R36, R37, I15): io_req_wdata while a read is offered, one value from raising io_req_valid to the edge that
issues the read. Assumption 7. -/
opaque readWdata : Nat → Dword

/-- FREE (R36, I15): io_req_write when nothing is offered. Assumption 7. -/
opaque idleWrite : Nat → Bool

/-- FREE (R36): which of the two ports io_req_port shows when nothing is offered. Assumption 7. -/
opaque idlePortIsData : Nat → Bool

/-- FREE (R229, I6): the fields latched when the command master broke its duty to hold a waiting command.
Assumption 8. -/
opaque unheldCommand : Nat → Command

/-- FREE (R32, I13): the platform's configuration-address latch once a configuration access is over, when other
agents may use the ports again. Assumption 9. -/
opaque platformLatch : Nat → Dword

/-- FREE (R37, R206, R220): whether a request offered with io_req_ready = 1 at an edge with rst = 1 was issued at that
edge. Assumption 19. -/
opaque resetEdgeIssues : Nat → Bool

/-- FREE (R221, I8): whether a write already issued when reset aborts its command takes effect. Assumption 10. -/
opaque abortedTakesEffect : Nat → Bool

end Sys2Proof.Config
end

