-- ==== Sys2Proof/Machine/Flags.lean ====
section
/-!
DEFINITION. The conditions the block computes. The multifunction flag is no register: it is computed each time the
enumerator advances (R30). RSP_FOUND and RSP_ERR are registers, written by `respond` (Machine/Ops.lean).
-/

namespace Sys2Proof.Machine

/-- The held header is of a present function: HDR_VENDOR is not the sentinel (R22, R145). -/
def present (h : Header) : Bool :=
  h.vendor != Config.sentinelVendor

/-- `multifunction()` of R141: the held header is present and HDR_TYPE[7] is set. It is not latched from function 0
(spec/90_conflicts.md C2). -/
def multifunction (h : Header) : Bool :=
  present h && h.headerType.getLsbD 7

/-- The position is the end sentinel: ENUM_BUS >= 256, the values 257..511 among them (R21, R142). -/
def atSentinel (p : Position) : Bool :=
  decide (Config.sentinelBus ≤ p.bus)

end Sys2Proof.Machine
end

