-- ==== Sys2Proof/Machine/Operands.lean ====
section
/-!
DEFINITION. Every operand form of the block: the configuration-address value and its fields (R80, R82, R100), the
sub-dword selection (R114, R115), the byte lanes of a dword (R53), the BAR offset (R180), the probe's addresses and
the header fields of its dwords (R143). Pure functions, all unsigned.
-/

namespace Sys2Proof.Machine

/-- The Config Address Encoding `encode(bus, dev, fn, off)` of R100: enable bit, bus, device masked to 5 bits, function
masked to 3 bits, offset with its low two bits cleared. -/
def cfgAddress (bus dev fn off : Byte) : Dword :=
  (1#32 <<< 31) ||| (bus.setWidth 32 <<< 16) ||| ((dev &&& 0x1F#8).setWidth 32 <<< 11)
    ||| ((fn &&& 0x07#8).setWidth 32 <<< 8) ||| (off &&& 0xFC#8).setWidth 32

/-- `decode(a)` of R82, for test benches: (bus, dev, fn, off, enable). -/
def cfgFields (a : Dword) : Byte × Byte × Byte × Byte × Bool :=
  (a.extractLsb' 16 8, (a.extractLsb' 11 5).setWidth 8, (a.extractLsb' 8 3).setWidth 8,
    (a.extractLsb' 2 6).setWidth 8 <<< 2, a.getLsbD 31)

/-- RD_WORD's sub-field: shift right by `8 * (off & 0x2)`, keep 16 bits, zero-extend (R114). -/
def wordOf (v : Dword) (off : Byte) : Dword :=
  ((v >>> (8 * (off &&& 0x2#8).toNat)).setWidth 16).setWidth 32

/-- RD_BYTE's sub-field: shift right by `8 * (off & 0x3)`, keep 8 bits, zero-extend (R115). -/
def byteOf (v : Dword) (off : Byte) : Dword :=
  ((v >>> (8 * (off &&& 0x3#8).toNat)).setWidth 8).setWidth 32

/-- Byte lane `i` of a dword, bits 8i+7 : 8i (R53). -/
def lane (v : Dword) (i : Nat) : Byte :=
  v.extractLsb' (8 * i) 8

/-- A configuration byte's key in the flat space of 65,536 functions of 256 bytes (R51): bus, device, function and
byte offset side by side. -/
def configByteKey (bus dev fn off : Byte) : Nat :=
  ((bus.toNat * 32 + dev.toNat % 32) * 8 + fn.toNat % 8) * 256 + off.toNat

/-- The configuration bytes that one data-port transfer carries, when the address latch holds `a` and the data is `v`:
byte `(o & 0xFC) + i` in lane `i`, for reads and for writes (R53, decision D28). -/
def transferBytes (a v : Dword) : List Host.Cell :=
  [0, 1, 2, 3].map fun i => (a.toNat % 2 ^ 24 / 4 * 4 + i, lane v i)

/-- `bar_offset(index)` of R180, the sum `0x10 + 4 * index` in 8 bits. -/
def barOffset (index : Byte) : Byte :=
  (Config.barBase.setWidth 10 + Config.barStride.setWidth 10 * index.setWidth 10).setWidth 8

/-- The address of one header dword of a probe: `b = ENUM_BUS[7:0]`, `d` and `f` zero-extended (R143). -/
def probeAddress (p : Position) (off : Byte) : Dword :=
  cfgAddress (p.bus.setWidth 8) (p.dev.setWidth 8) (p.fn.setWidth 8) off

/-- The six header fields of the dwords at 0x00, 0x08 and 0x0C (R143). -/
def headerOf (d0 d2 d3 : Dword) : Header where
  vendor := d0.extractLsb' 0 16
  device := d0.extractLsb' 16 16
  progIf := d2.extractLsb' 8 8
  subclass := d2.extractLsb' 16 8
  classCode := d2.extractLsb' 24 8
  headerType := d3.extractLsb' 16 8

end Sys2Proof.Machine
end

