-- ==== Sys2Proof/Machine/State.lean ====
section
/-!
DEFINITION. The state of the block and of what stands around it (spec/10_state.md), as plain data, and the state
right after reset. The block has no general registers, no program counter and no memory (R24, R41, R52): its state is
the registers of R21 to R29, the temporaries of R26 and the I/O request under way (R37). Around it stand the I/O
responder's address latch and its history of transactions (R32, R63) and the pins the environment drives (R33 to
R39), as a list that the step reads.
-/

namespace Sys2Proof.Machine

/-- The control register CTRL (R24). Its bit encoding is not observable (R31, I9). -/
inductive Ctrl where
  /-- No command is held and cmd_ready = 1. -/
  | idle
  /-- A command has been accepted and its I/O sequence is running. -/
  | busy
  /-- The response is offered with rsp_valid = 1. -/
  | resp
  deriving DecidableEq, Repr

/-- The response registers RSP_DATA, RSP_FOUND and RSP_ERR (R27, R28, R29). -/
structure Response where
  data : Dword
  found : Bool
  err : Bool
  deriving DecidableEq, Repr

/-- The internal temporaries of R26: the index of the next I/O transaction of the running command, the last
completed read value, and the three dwords of a probe under way. Their values outside BUSY are unspecified (I10):
assumption 3. -/
structure Temps where
  txnIndex : Nat
  lastRead : Dword
  probeD0 : Dword
  probeD2 : Dword
  probeD3 : Dword
  deriving DecidableEq, Repr

/-- One I/O request (R10, R36): `MemWrite(port, 4, value)` or `MemRead(port, 4)`. There is no size: every transaction
moves four bytes (R56). -/
inductive IoReq where
  | write (port : Port) (value : Dword)
  | read (port : Port)
  deriving DecidableEq, Repr

/-- The I/O master interface (R36, R37). -/
inductive IoPhase where
  /-- io_req_valid = 0 and nothing is outstanding. -/
  | quiet
  /-- io_req_valid = 1: the request is offered and held until io_req_ready = 1. -/
  | offered (req : IoReq)
  /-- The request was issued, and its one completion has not arrived. -/
  | outstanding (req : IoReq)
  deriving DecidableEq, Repr

/-- How an issued transaction ended. -/
inductive TxnEnd where
  /-- A write that completed. -/
  | wrote
  /-- A read that completed with this value (R37). -/
  | got (value : Dword)
  /-- Reset aborted the command first; for a write, whether it took effect all the same (R221, I8). -/
  | aborted (tookEffect : Bool)
  deriving DecidableEq, Repr

/-- One transaction of the I/O responder's history (R63). `target` is what the address latch held when a data-port
transaction was issued: the function and dword register it reaches (R59). -/
structure IoTxn where
  req : IoReq
  target : Option Dword
  ending : TxnEnd
  deriving DecidableEq, Repr

/-- What the model holds of the I/O responder: the platform's configuration-address register (R32) and the list of
the block's transactions, in issue order (R63). -/
structure Responder where
  latch : Dword
  history : List IoTxn
  deriving DecidableEq, Repr

/-- The block's input pins at one rising edge of clk (R33, R35, R36, R39), and one fact about the responder that is no
pin: whether the completion at this edge, if there is one, is that of a transaction that a reset aborted (R221).
Assumption 11. -/
structure Pins where
  rst : Bool
  cmdValid : Bool
  cmd : Command
  rspReady : Bool
  ioReqReady : Bool
  ioRspValid : Bool
  ioRspRdata : Dword
  ioRspLate : Bool
  deriving DecidableEq, Repr

/-- The command master's duty to hold an offered command (R34, R229): a command that waits, or a duty broken before
acceptance (I6). -/
inductive CmdOffer where
  | nothing
  | waiting (c : Command)
  | broken
  deriving DecidableEq, Repr

/-- The whole state. -/
structure State where
  /-- ENUM_BUS, ENUM_DEV, ENUM_FN (R21). -/
  pos : Position
  /-- HDR_VENDOR, HDR_DEVICE, HDR_PROGIF, HDR_SUBCLASS, HDR_CLASS, HDR_TYPE (R22). -/
  hdr : Header
  /-- CTRL (R24). -/
  ctrl : Ctrl
  /-- CMD_OP, CMD_BUS, CMD_DEV, CMD_FN, CMD_ARG, CMD_WDATA (R25). -/
  cmd : Command
  /-- RSP_DATA, RSP_FOUND, RSP_ERR (R27 to R29). -/
  rsp : Response
  /-- The internal temporaries (R26). -/
  temps : Temps
  /-- The request on the I/O master interface (R37). -/
  io : IoPhase
  /-- MODEL'S OWN: the value of `tick` when the last request was offered. It only indexes the free value of the pin
io_req_wdata that a waiting read holds (R37, assumption 7). -/
  offeredAt : Nat
  /-- The I/O responder (R20, R32, R63). -/
  responder : Responder
  /-- How many transactions that a reset aborted the responder has not completed yet (R221, R231). -/
  lateDue : Nat
  /-- The offered command that waits (R229). -/
  cmdOffer : CmdOffer
  /-- The environment: the pins of the edges still to come, in order. Edges at which every valid, ready and rst pin is
  0 may be left out (assumption 2). -/
  inputs : List Pins
  /-- MODEL'S OWN: the number of listed edges seen. It only indexes the free values of `Config` (assumption 5). -/
  tick : Nat
  deriving DecidableEq, Repr

/-- The block has no fault: "No assigned command raises an exception, sets RSP_ERR, or stops the block" (R200; the
treatments of spec/93_implementation_defined.md use no fault). So there is no reason to fault. -/
inductive Fault where
  deriving DecidableEq, Repr

/-- Why a step can be refused. -/
inductive Refusal where
  /-- Raised by an arm of `exec` whose instruction has no meaning yet; safe. No arm raises it. -/
  | notModelled (mnemonic : String)
  deriving DecidableEq, Repr

/-- The reset values of R40. CMD_*, the temporaries and the platform's latch have none there: they are 0 here
(assumptions 3, 4 and 9). -/
def State.reset : State where
  pos := { bus := 256, dev := 0, fn := 0 }
  hdr := { vendor := 0xFFFF, device := 0, progIf := 0, subclass := 0, classCode := 0, headerType := 0 }
  ctrl := .idle
  cmd := { op := 0, bus := 0, dev := 0, fn := 0, arg := 0, wdata := 0 }
  rsp := { data := 0, found := false, err := false }
  temps := { txnIndex := 0, lastRead := 0, probeD0 := 0, probeD2 := 0, probeD3 := 0 }
  io := .quiet
  offeredAt := 0
  responder := { latch := 0, history := [] }
  lateDue := 0
  cmdOffer := .nothing
  inputs := []
  tick := 0

end Sys2Proof.Machine
end

