-- ==== Sys2Proof/Machine/Ops.lean ====
section
/-!
DEFINITION. The operations the commands share: the edges of the handshakes (R34 to R37), reset (R220, R221), `respond`
and IllegalCommand (R11, R202), the two-step configuration accesses (R110, R111), and running a command against the
edges that the environment gives.

A command is written as its SEQUENCER: what the block does when the transaction before `txnIndex` has completed. It
offers transaction number `txnIndex`, or it responds. `runCommand` runs a sequencer over the listed edges until the
block is no longer BUSY.
-/

namespace Sys2Proof.Machine

/-! ### Reset -/

/-- The port of a request. -/
def IoReq.port : IoReq → Port
  | .write port _ => port
  | .read port => port

/-- The transaction a request becomes in the responder's history. -/
def txnOf (req : IoReq) (latch : Dword) (ending : TxnEnd) : IoTxn :=
  { req, target := if req.port = Config.dataPort then some latch else none, ending }

/-- The responder after a write took effect: a write to the address port sets the latch (R59). -/
def Responder.takeWrite (r : Responder) : IoReq → Responder
  | .write port v => if port = Config.addrPort then { r with latch := v } else r
  | .read _ => r

/-- The edge brings the completion of a transaction that a reset aborted, `due` of which have not come yet (R221). Where
none is due the responder makes no such move (R231), and a completion is taken by R37. -/
def isLate (p : Pins) (due : Nat) : Bool :=
  p.ioRspValid && p.ioRspLate && due != 0

/-- How many completions of aborted transactions are due after an edge. -/
def lateAfter (p : Pins) (due : Nat) : Nat :=
  if isLate p due then due - 1 else due

/-- The completion of the transaction that is outstanding now (R37): not one of an aborted transaction, which is ignored
(R221, R231). -/
def ownCompletion (p : Pins) (due : Nat) : Bool :=
  p.ioRspValid && !isLate p due

/-- The issued transaction that a reset at this edge aborts (R221). A request that was only offered is not issued,
unless the responder accepts it at this very edge: R37 then calls it issued, R206 and R220 can be read either way, and
both outcomes are admitted (assumption 19). -/
def abortedReq (p : Pins) (s : State) : Option IoReq :=
  match s.io with
  | .outstanding req => some req
  | .offered req => if p.ioReqReady && Config.resetEdgeIssues s.tick then some req else none
  | .quiet => none

/-- What a reset leaves at the responder (R221, R222): an issued transaction is recorded as aborted, and a write of it
took effect or did not (I8). -/
def abortIo (p : Pins) (s : State) : Responder :=
  match abortedReq p s with
  | some req =>
    let took := Config.abortedTakesEffect s.tick
    let r := if took then s.responder.takeWrite req else s.responder
    { r with history := s.responder.history ++ [txnOf req s.responder.latch (.aborted took)] }
  | none => s.responder

/-- The completion of the aborted transaction arrives at the reset edge itself. -/
def completesNow (p : Pins) (s : State) : Bool :=
  match s.io with
  | .outstanding _ => ownCompletion p s.lateDue
  | _ => false

/-- How many completions of aborted transactions are due after a reset edge: one more when it aborts an issued
transaction that does not complete at this edge. -/
def lateAfterReset (p : Pins) (s : State) : Nat :=
  if (abortedReq p s).isNone || completesNow p s then lateAfter p s.lateDue
  else lateAfter p s.lateDue + 1

/-- An edge with rst = 1 (R220, R221, R206): every register of the block takes its reset value, no command is
accepted, and no response is given. The responder's own state is not reset (R222). -/
def resetEdge (p : Pins) (s : State) : State :=
  { State.reset with
    responder := abortIo p s, lateDue := lateAfterReset p s, inputs := s.inputs, tick := s.tick + 1 }

/-! ### The command and response channels -/

/-- What an edge with rst = 0 shows of the master's duty to hold a command it offers (R34, R229). -/
def CmdOffer.watch (p : Pins) : CmdOffer → CmdOffer
  | .nothing => if p.cmdValid then .waiting p.cmd else .nothing
  | .waiting c => if p.cmdValid && p.cmd == c then .waiting c else .broken
  | .broken => .broken

/-- The bookkeeping of every edge with rst = 0 at which no command is accepted. -/
def passEdge (p : Pins) (s : State) : State :=
  { s with cmdOffer := s.cmdOffer.watch p, tick := s.tick + 1, lateDue := lateAfter p s.lateDue }

/-- The fields latched at an accepting edge: those on the pins; not specified when the master broke its duty (R229). -/
def latchedCommand (p : Pins) (s : State) : Command :=
  match s.cmdOffer.watch p with
  | .broken => Config.unheldCommand s.tick
  | _ => p.cmd

/-- Accepting a command (R34): the fields are latched (R25), CTRL <- BUSY, and the command's sequence begins. -/
def accept (p : Pins) (s : State) : State :=
  { s with
    cmd := latchedCommand p s, ctrl := .busy, io := .quiet, temps := { s.temps with txnIndex := 0 },
    cmdOffer := .nothing, tick := s.tick + 1, lateDue := lateAfter p s.lateDue }

/-- `respond(data, found, err)` (R11): the response registers are written, and CTRL <- RESP. -/
def respond (data : Dword) (found err : Bool) (s : State) : State :=
  { s with rsp := { data, found, err }, ctrl := .resp, io := .quiet }

/-- `raise IllegalCommand(op)`: the one exception of the block, `respond(0, 0, 1)` with no other effect (R11, R202).
There is no trap entry beside it: nothing is saved and nothing is vectored (R204). -/
def takeIllegalCommand (s : State) : State :=
  respond 0 false true s

/-- The response is taken (R35): CTRL <- IDLE, and the response registers keep their values. This is the one return
there is (R205). -/
def takeResponse (p : Pins) (s : State) : State :=
  { passEdge p s with ctrl := .idle }

/-! ### The I/O master interface -/

/-- Offering the next transaction (R37): io_req_valid rises, and the request is held until it is issued. -/
def offer (req : IoReq) (s : State) : State :=
  { s with io := .offered req, offeredAt := s.tick }

/-- The offered request is accepted: it is issued (R37). -/
def issue (req : IoReq) (s : State) : State :=
  { s with io := .outstanding req }

/-- How a request ends when it completes with `io_rsp_rdata = rdata` (R37): a write ignores the data. -/
def IoReq.ending (rdata : Dword) : IoReq → TxnEnd
  | .write _ _ => .wrote
  | .read _ => .got rdata

/-- The last completed read value after a request completes (R26). -/
def IoReq.lastRead (rdata old : Dword) : IoReq → Dword
  | .write _ _ => old
  | .read _ => rdata

/-- What the responder is after it completed a request. When a data-port access ends, other agents may use the ports
again, and the latch is the platform's (R226, I13). -/
def completedResponder (req : IoReq) (rdata : Dword) (s : State) : Responder :=
  let done := s.responder.takeWrite req
  let txn := txnOf req s.responder.latch (req.ending rdata)
  { latch := if txn.target.isSome then Config.platformLatch s.tick else done.latch,
    history := s.responder.history ++ [txn] }

/-- The one completion of an issued request (R37): a read's data is `io_rsp_rdata` of that edge, a write's is ignored,
and the next transaction is due. -/
def complete (req : IoReq) (rdata : Dword) (s : State) : State :=
  { s with
    responder := completedResponder req rdata s, io := .quiet,
    temps := { s.temps with
      txnIndex := s.temps.txnIndex + 1,
      lastRead := req.lastRead rdata s.temps.lastRead } }

/-- One edge of a BUSY block whose command has this sequencer (R37, R206, R221): reset wins; an offered request waits
for io_req_ready and an issued one for its own completion; a completion with nothing outstanding, or of an aborted
transaction, changes no register (R231, R221). -/
def busyEdge (seq : State → State) (p : Pins) (s : State) : State :=
  if p.rst then resetEdge p s
  else match s.io with
    | .offered req => if p.ioReqReady then issue req (passEdge p s) else passEdge p s
    | .outstanding req =>
      if ownCompletion p s.lateDue then seq (complete req p.ioRspRdata (passEdge p s)) else passEdge p s
    | .quiet => passEdge p s

/-- The block runs its command over the listed edges until it is no longer BUSY; where the edges end first, it stays
BUSY (R212). -/
def runEdges (seq : State → State) : List Pins → State → State
  | [], s => { s with inputs := [] }
  | p :: ps, s =>
    if s.ctrl = .busy then runEdges seq ps (busyEdge seq p s) else { s with inputs := p :: ps }

/-- The block's own move before the first edge: with no request under way, the sequencer acts. -/
def start (seq : State → State) (s : State) : State :=
  match s.io with
  | .quiet => seq { s with ctrl := .busy }
  | _ => { s with ctrl := .busy }

/-- Running a command: from where its temporaries stand, so a command that waited for the responder goes on. -/
def runCommand (seq : State → State) (s : State) : Host.Outcome State Fault Refusal :=
  .next (runEdges seq s.inputs (start seq s))

/-! ### The two-step configuration accesses -/

/-- Transaction 1 of every access: the encoded address to the address port (R110, R111, R117). -/
def addrWrite (bus dev fn off : Byte) : IoReq :=
  .write Config.addrPort (cfgAddress bus dev fn off)

/-- Transaction 2 of a read: one dword from the data port (R110). -/
def dataRead : IoReq :=
  .read Config.dataPort

/-- Transaction 2 of a write: one dword to the data port (R111). -/
def dataWrite (v : Dword) : IoReq :=
  .write Config.dataPort v

/-- `cfg_read_dword(bus, dev, fn, off)` (R110), and then `k` with the dword read. -/
def cfgReadDword (bus dev fn off : Byte) (k : Dword → State → State) (s : State) : State :=
  match s.temps.txnIndex with
  | 0 => offer (addrWrite bus dev fn off) s
  | 1 => offer dataRead s
  | _ => k s.temps.lastRead s

/-- `cfg_write_dword(bus, dev, fn, off, value)` (R111), and then `k`. -/
def cfgWriteDword (bus dev fn off : Byte) (value : Dword) (k : State → State) (s : State) : State :=
  match s.temps.txnIndex with
  | 0 => offer (addrWrite bus dev fn off) s
  | 1 => offer (dataWrite value) s
  | _ => k s

end Sys2Proof.Machine
end

