-- ==== Sys2Proof/Machine/Accessor.lean ====
section
/-!
DEFINITION. The config accessor's commands, RD_DWORD, WR_DWORD, RD_WORD and RD_BYTE (spec/41_accessor.md). A word or
byte read is one full dword read, and there is no word or byte write (R116, R118).
-/

namespace Sys2Proof.Machine

/-- RD_DWORD (R112). -/
def execRdDword (bus dev fn off : Byte) (s : State) : Host.Outcome State Fault Refusal :=
  runCommand (cfgReadDword bus dev fn off fun v => respond v false false) s

/-- WR_DWORD (R113). -/
def execWrDword (bus dev fn off : Byte) (value : Dword) (s : State) : Host.Outcome State Fault Refusal :=
  runCommand (cfgWriteDword bus dev fn off value (respond 0 false false)) s

/-- RD_WORD (R114): the half that `off & 2` selects. -/
def execRdWord (bus dev fn off : Byte) (s : State) : Host.Outcome State Fault Refusal :=
  runCommand (cfgReadDword bus dev fn off fun v => respond (wordOf v off) false false) s

/-- RD_BYTE (R115): the byte that `off & 3` selects. -/
def execRdByte (bus dev fn off : Byte) (s : State) : Host.Outcome State Fault Refusal :=
  runCommand (cfgReadDword bus dev fn off fun v => respond (byteOf v off) false false) s

end Sys2Proof.Machine
end

