-- ==== Sys2Proof/Machine/Bar.lean ====
section
/-!
DEFINITION. The BAR accessor's commands, RD_BAR and WR_BAR (spec/43_bar.md). No index is checked (R183).
-/

namespace Sys2Proof.Machine

/-- RD_BAR (R181). -/
def execRdBar (bus dev fn index : Byte) (s : State) : Host.Outcome State Fault Refusal :=
  runCommand (cfgReadDword bus dev fn (barOffset index) fun v => respond v false false) s

/-- WR_BAR (R182). -/
def execWrBar (bus dev fn index : Byte) (value : Dword) (s : State) : Host.Outcome State Fault Refusal :=
  runCommand (cfgWriteDword bus dev fn (barOffset index) value (respond 0 false false)) s

end Sys2Proof.Machine
end

