-- ==== Sys2Proof/Machine/Codec.lean ====
section
/-!
DEFINITION. The address codec's command, ENCODE (spec/40_codec.md).
-/

namespace Sys2Proof.Machine

/-- ENCODE (R101): the configuration-address value, without touching the ports. -/
def execEncodeAddr (bus dev fn off : Byte) (s : State) : Host.Outcome State Fault Refusal :=
  runCommand (respond (cfgAddress bus dev fn off) false false) s

end Sys2Proof.Machine
end

