-- ==== Sys2Proof/Machine/Enumerator.lean ====
section
/-!
DEFINITION. The function enumerator, ENUM_INIT and ENUM_NEXT (spec/42_enumerator.md).
-/

namespace Sys2Proof.Machine

/-- `advance(mf)` (R142): one step in ascending (bus, device, function) order, with the sums at the widths the rule
states; from the end sentinel, back to (0,0,0). -/
def advance (mf : Bool) (p : Position) : Position :=
  if atSentinel p then { bus := 0, dev := 0, fn := 0 }
  else
    let f : BitVec 4 := p.fn.setWidth 4 + 1
    if f == 8 || !mf then
      let d : BitVec 6 := p.dev.setWidth 6 + 1
      if d == 32 then { bus := p.bus + 1, dev := 0, fn := 0 }
      else { bus := p.bus, dev := d.setWidth 5, fn := 0 }
    else { bus := p.bus, dev := p.dev, fn := f.setWidth 3 }

/-- ENUM_INIT (R144): the position is the end sentinel and HDR_VENDOR is 0xFFFF; the other HDR_* keep their values
(decision D12). -/
def execEnumInit (s : State) : Host.Outcome State Fault Refusal :=
  runCommand
    (fun s => respond 0 false false
      { s with
        pos := { bus := Config.sentinelBus, dev := 0, fn := 0 },
        hdr := { s.hdr with vendor := Config.sentinelVendor } }) s

/-- The first transaction of a configuration read of the enumerator's position (R143). -/
def probeWrite (p : Position) (off : Byte) : IoReq :=
  .write Config.addrPort (probeAddress p off)

/-- The head of the loop of R145: advance; at the end sentinel report exhaustion, else begin the probe. -/
def enumRound (s : State) : State :=
  let p := advance (multifunction s.hdr) s.pos
  let s := { s with pos := p, temps := { s.temps with txnIndex := 0 } }
  if atSentinel p then respond 0 false false { s with hdr := { s.hdr with vendor := Config.sentinelVendor } }
  else offer (probeWrite p Config.headerOffset0) s

/-- The end of a probe (R143, R145): the three dwords load all six header registers; a present function is yielded, an
absent one sends the loop round again. -/
def probeDone (s : State) : State :=
  let s := { s with hdr := headerOf s.temps.probeD0 s.temps.probeD2 s.temps.probeD3 }
  if present s.hdr then respond 0 true false s else enumRound s

/-- ENUM_NEXT's sequencer: the six transactions of each probe, in the order of R143, inside the loop of R145. -/
def enumNextSeq (s : State) : State :=
  match s.temps.txnIndex with
  | 0 => enumRound s
  | 1 => offer dataRead s
  | 2 => offer (probeWrite s.pos Config.headerOffset2) { s with temps := { s.temps with probeD0 := s.temps.lastRead } }
  | 3 => offer dataRead s
  | 4 => offer (probeWrite s.pos Config.headerOffset3) { s with temps := { s.temps with probeD2 := s.temps.lastRead } }
  | 5 => offer dataRead s
  | _ => probeDone { s with temps := { s.temps with probeD3 := s.temps.lastRead } }

/-- ENUM_NEXT (R145): the next present function, or exhaustion. -/
def execEnumNext (s : State) : Host.Outcome State Fault Refusal :=
  runCommand enumNextSeq s

end Sys2Proof.Machine
end

