-- ==== Sys2Proof/Machine/Dispatch.lean ====
section
/-!
DEFINITION. One arm per command (R84): the whole of a command, from its start to its response, as far as the listed
edges let it run.
-/

namespace Sys2Proof.Machine

def exec (i : Instr) (s : State) : Host.Outcome State Fault Refusal :=
  match i with
  | .encodeAddr bus dev fn off => Sys2Proof.Machine.execEncodeAddr bus dev fn off s
  | .rdDword bus dev fn off => Sys2Proof.Machine.execRdDword bus dev fn off s
  | .wrDword bus dev fn off value => Sys2Proof.Machine.execWrDword bus dev fn off value s
  | .rdWord bus dev fn off => Sys2Proof.Machine.execRdWord bus dev fn off s
  | .rdByte bus dev fn off => Sys2Proof.Machine.execRdByte bus dev fn off s
  | .enumInit => Sys2Proof.Machine.execEnumInit s
  | .enumNext => Sys2Proof.Machine.execEnumNext s
  | .rdBar bus dev fn index => Sys2Proof.Machine.execRdBar bus dev fn index s
  | .wrBar bus dev fn index value => Sys2Proof.Machine.execWrBar bus dev fn index value s

end Sys2Proof.Machine
end

