-- ==== Sys2Proof/Machine/Control.lean ====
section
/-!
DEFINITION. What the block does by the value of CTRL (R24), and how an outside agent offers it a command.
-/

namespace Sys2Proof.Machine

/-- BUSY: the latched command runs. The opcode is checked when the command starts, before anything else: an
unassigned one is an IllegalCommand (R202). -/
def runLatched (s : State) : Host.Outcome State Fault Refusal :=
  match s.cmd.decode with
  | .ok i => exec i s
  | .error _ => .next (takeIllegalCommand s)

/-- IDLE, at one edge: reset wins (R206), an offered command is accepted (R34) and runs. Which commands came before makes no
difference: nothing holds a command back between the two of a read-modify-write (R118, R234). At the first edge with
rst = 0 after a reset a command is accepted like at any other, as R33 and R34 have it, though R220 has the block IDLE
after that edge: DEDUCED, the model's choice (assumption 21). -/
def idleEdge (p : Pins) (s : State) : Host.Outcome State Fault Refusal :=
  if p.rst then .next (resetEdge p s)
  else if p.cmdValid then runLatched (accept p s)
  else .next (passEdge p s)

/-- RESP, at one edge: reset wins, even over a response already offered (R221); the response is taken (R35) or held
(R230). No command is accepted, as cmd_ready = 0 (R206). -/
def respEdge (p : Pins) (s : State) : State :=
  if p.rst then resetEdge p s
  else if p.rspReady then takeResponse p s
  else passEdge p s

/-- The pins with nothing driven. -/
def quietPins : Pins :=
  { rst := false, cmdValid := false, cmd := Command.ofWord 0, rspReady := false, ioReqReady := false,
    ioRspValid := false, ioRspRdata := 0, ioRspLate := false }

/-- The pins of an edge at which the command master offers a command word (R33, R83). -/
def offerPins (w : CommandWord) : Pins :=
  { quietPins with cmdValid := true, cmd := Command.ofWord w }

/-- The block idle, and an edge that offers the command word `w` before the edges still to come. -/
def withOffer (w : CommandWord) (s : State) : State :=
  { s with ctrl := .idle, io := .quiet, cmdOffer := .nothing, inputs := offerPins w :: s.inputs }

end Sys2Proof.Machine
end

