-- ==== Sys2Proof/Machine/Step.lean ====
section
/-!
DEFINITION. One step. A BUSY block runs its latched command; an IDLE or RESP block takes the next listed edge. An
accepted command runs in the step that accepts it, as far as the listed edges let it.
-/

namespace Sys2Proof.Machine

/-- One step of the block. Where no edge is listed and no command runs, nothing happens. -/
def step (s : State) : Host.Outcome State Fault Refusal :=
  match s.ctrl with
  | .busy => runLatched s
  | .idle =>
    match s.inputs with
    | [] => .next s
    | p :: ps => idleEdge p { s with inputs := ps }
  | .resp =>
    match s.inputs with
    | [] => .next s
    | p :: ps => .next (respEdge p { s with inputs := ps })

/-- The block fetches nothing (R24, R65): its next instruction is the command that the command master offers. So the
instruction is stored on the command channel, and the block is idle to accept it (assumption 13). -/
def State.withFetchWord (s : State) (nbits w : Nat) : State :=
  withOffer (BitVec.ofNat 68 (w % 2 ^ nbits)) s

end Sys2Proof.Machine
end

