-- ==== Sys2Proof/Machine/Assembler.lean ====
section
/-!
DEFINITION. The assembler of spec/30_encoding.md R88: source text, one command a line, to command words. There are no
pseudo-instructions: every line with a mnemonic is one command (R89). Text is a list of characters.
-/

namespace Sys2Proof.Machine

/-- The command of a well-formed line; an ill-formed line is refused (R88). -/
def lineInstr (l : AsmLine) : Option Instr :=
  if l.wellFormed then
    match l.mnemonic, l.operands.map (BitVec.ofNat 32) with
    | .ENCODE, [b, d, f, o] => some (.encodeAddr (b.setWidth 8) (d.setWidth 8) (f.setWidth 8) (o.setWidth 8))
    | .RD_DWORD, [b, d, f, o] => some (.rdDword (b.setWidth 8) (d.setWidth 8) (f.setWidth 8) (o.setWidth 8))
    | .WR_DWORD, [b, d, f, o, v] => some (.wrDword (b.setWidth 8) (d.setWidth 8) (f.setWidth 8) (o.setWidth 8) v)
    | .RD_WORD, [b, d, f, o] => some (.rdWord (b.setWidth 8) (d.setWidth 8) (f.setWidth 8) (o.setWidth 8))
    | .RD_BYTE, [b, d, f, o] => some (.rdByte (b.setWidth 8) (d.setWidth 8) (f.setWidth 8) (o.setWidth 8))
    | .ENUM_INIT, [] => some .enumInit
    | .ENUM_NEXT, [] => some .enumNext
    | .RD_BAR, [b, d, f, n] => some (.rdBar (b.setWidth 8) (d.setWidth 8) (f.setWidth 8) (n.setWidth 8))
    | .WR_BAR, [b, d, f, n, v] => some (.wrBar (b.setWidth 8) (d.setWidth 8) (f.setWidth 8) (n.setWidth 8) v)
    | _, _ => none
  else none

/-- The command word of a line; every ignored field is 0 (R88). -/
def assemble (l : AsmLine) : Option CommandWord :=
  (lineInstr l).map encode

/-- The line of a command: its mnemonic and its used operands in the order bus, dev, fn, arg, wdata (R86, R88). -/
def disassemble (i : Instr) : AsmLine where
  mnemonic := i.mnemonic
  operands :=
    match i with
    | .encodeAddr b d f o | .rdDword b d f o | .rdWord b d f o | .rdByte b d f o | .rdBar b d f o =>
      [b.toNat, d.toNat, f.toNat, o.toNat]
    | .wrDword b d f o v | .wrBar b d f o v => [b.toNat, d.toNat, f.toNat, o.toNat, v.toNat]
    | .enumInit | .enumNext => []

/-- A mnemonic as it is written (R88). -/
def mnemonicText : Mnemonic → List Char
  | .ENCODE => "ENCODE".toList
  | .RD_DWORD => "RD_DWORD".toList
  | .WR_DWORD => "WR_DWORD".toList
  | .RD_WORD => "RD_WORD".toList
  | .RD_BYTE => "RD_BYTE".toList
  | .ENUM_INIT => "ENUM_INIT".toList
  | .ENUM_NEXT => "ENUM_NEXT".toList
  | .RD_BAR => "RD_BAR".toList
  | .WR_BAR => "WR_BAR".toList

/-- All mnemonics, in the order of R84. -/
def allMnemonics : List Mnemonic :=
  [.ENCODE, .RD_DWORD, .WR_DWORD, .RD_WORD, .RD_BYTE, .ENUM_INIT, .ENUM_NEXT, .RD_BAR, .WR_BAR]

/-- The value of a digit, decimal or hex. -/
def digitValue (c : Char) : Option Nat :=
  if '0' ≤ c ∧ c ≤ '9' then some (c.toNat - '0'.toNat)
  else if 'a' ≤ c ∧ c ≤ 'f' then some (c.toNat - 'a'.toNat + 10)
  else if 'A' ≤ c ∧ c ≤ 'F' then some (c.toNat - 'A'.toNat + 10)
  else none

/-- The digits of a number in one base, after the value so far. -/
def digits (base : Nat) : List Char → Nat → Option Nat
  | [], n => some n
  | c :: cs, n =>
    match digitValue c with
    | some d => if d < base then digits base cs (n * base + d) else none
    | none => none

/-- A number: decimal, or hex after `0x` (R88). -/
def parseNumber : List Char → Option Nat
  | [] => none
  | ['0', 'x'] => none
  | '0' :: 'x' :: cs => digits 16 cs 0
  | cs => digits 10 cs 0

/-- White space inside a line. -/
def blankChar (c : Char) : Bool :=
  c == ' ' || c == '\t'

/-- A piece of text without white space at its ends. -/
def trim (cs : List Char) : List Char :=
  ((cs.dropWhile blankChar).reverse.dropWhile blankChar).reverse

/-- The pieces of a text between commas. -/
def splitCommas : List Char → List (List Char)
  | [] => [[]]
  | c :: cs =>
    if c = ',' then [] :: splitCommas cs
    else match splitCommas cs with
      | piece :: rest => (c :: piece) :: rest
      | [] => [[c]]

/-- Every number of a list of pieces, or nothing when one is no number. -/
def parseOperands : List (List Char) → Option (List Nat)
  | [] => some []
  | piece :: rest =>
    match parseNumber (trim piece), parseOperands rest with
    | some n, some ns => some (n :: ns)
    | _, _ => none

/-- A mnemonic and its operands; a line without operands has none to split. -/
def parseCommand (cs : List Char) : Option AsmLine :=
  let name := cs.takeWhile fun c => !blankChar c
  let rest := trim (cs.dropWhile fun c => !blankChar c)
  match allMnemonics.find? fun m => mnemonicText m == name with
  | none => none
  | some mnemonic =>
    (if rest.isEmpty then some [] else parseOperands (splitCommas rest)).map fun operands => { mnemonic, operands }

/-- A label: one name, with no white space and no comma in it. -/
def labelOk (cs : List Char) : Bool :=
  !cs.isEmpty && cs.all fun c => !blankChar c && c != ','

/-- One line of source (R88): `;` starts a comment, `label:` names a place in the command master's own program and
makes no command, and what is left is nothing or one command. `none` refuses the line. -/
def assembleLine (cs : List Char) : Option (Option CommandWord) :=
  let code := cs.takeWhile (· != ';')
  let labelled := code.contains ':'
  let body := trim (if labelled then (code.dropWhile (· != ':')).drop 1 else code)
  if labelled && !labelOk (trim (code.takeWhile (· != ':'))) then none
  else if body.isEmpty then some none
  else match parseCommand body with
    | some l => (assemble l).map some
    | none => none

end Sys2Proof.Machine
end

