-- ==== Sys2Proof/Machine/Master.lean ====
section
/-!
DEFINITION. Sequences of commands that the command master makes up (R118, R234), over `step`. The block has no part in
them: it has no command of two accesses to one dword, and no register that ties one command to the next.
-/

namespace Sys2Proof.Machine

/-- The pins of an edge at which the command master takes a response (R35). -/
def takePins : Pins :=
  { quietPins with rspReady := true }

/-- The state that the outcome of one move hands to the next. -/
def andThen (o : Host.Outcome State Fault Refusal) (k : State → Host.Outcome State Fault Refusal) :
    Host.Outcome State Fault Refusal :=
  match o with
  | .next t => k t
  | .fault f => .fault f
  | .refused r => .refused r

/-- The command master issues the command word `w` as soon as it may (R34, R35): a held response is taken first, and
while the block is BUSY nothing can be issued. The edges still to come serve it. Assumption 20. -/
def issueCommand (w : CommandWord) (s : State) : Host.Outcome State Fault Refusal :=
  match s.ctrl with
  | .busy => .next s
  | .idle => step { s with inputs := offerPins w :: s.inputs }
  | .resp => andThen (step { s with inputs := takePins :: offerPins w :: s.inputs }) step

/-- Commands issued one after another. -/
def issueCommands : List CommandWord → State → Host.Outcome State Fault Refusal
  | [], s => .next s
  | w :: ws, s => andThen (issueCommand w s) (issueCommands ws)

/-- A read-modify-write of one dword by the command master (R118, R234): RD_DWORD, any commands the master issues in
between, then WR_DWORD of what `merge` makes of the dword that was read. It is two commands, and nothing makes the
pair atomic: no command in between is held back, and none changes what is written. The spec does not say what the
master does after a reset: here, by the model's DESIGN CHOICE (assumption 20), where the read got no response (R221,
R212) no dword was read and the master issues nothing more, and where a later command got none because of a reset it
goes on. -/
def readModifyWrite (bus dev fn off : Byte) (merge : Dword → Dword) (between : List CommandWord) (s : State) :
    Host.Outcome State Fault Refusal :=
  andThen (issueCommand (encode (.rdDword bus dev fn off)) s) fun t =>
    if t.ctrl = .resp then issueCommands (between ++ [encode (.wrDword bus dev fn off (merge t.rsp.data))]) t
    else .next t

end Sys2Proof.Machine
end

