-- ==== Sys2Proof/Machine/Outputs.lean ====
section
/-!
DEFINITION. The block's output pins as functions of its state (R33, R35, R36, R38). The status outputs while BUSY, and
the request fields while nothing uses them, are free values (I5, I15).
-/

namespace Sys2Proof.Machine

/-- The output pins. -/
structure Outputs where
  cmdReady : Bool
  rspValid : Bool
  rspData : Dword
  rspFound : Bool
  rspErr : Bool
  ioReqValid : Bool
  ioReqWrite : Bool
  ioReqPort : Port
  ioReqWdata : Dword
  enum : Position
  hdr : Header
  busy : Bool
  deriving DecidableEq, Repr

/-- io_req_valid: a request is offered (R37). It is a function of the registers, so at an edge with rst = 1 it still
shows the request, and is 0 after that edge (the model's choice, assumption 19). -/
def ioReqValid (s : State) : Bool :=
  match s.io with | .offered _ => true | _ => false

/-- io_req_write (R36). -/
def ioReqWrite (s : State) : Bool :=
  match s.io with
  | .offered (.write _ _) => true
  | .offered (.read _) => false
  | _ => Config.idleWrite s.tick

/-- io_req_port: always one of the two ports (R36). -/
def ioReqPort (s : State) : Port :=
  match s.io with
  | .offered (.write port _) => port
  | .offered (.read port) => port
  | _ => if Config.idlePortIsData s.tick then Config.dataPort else Config.addrPort

/-- io_req_wdata: unspecified when no write is offered (R36, I15). While a read waits it is a free value too, and held
stable as R37 says of every io_req_* field. -/
def ioReqWdata (s : State) : Dword :=
  match s.io with
  | .offered (.write _ v) => v
  | .offered (.read _) => Config.readWdata s.offeredAt
  | _ => Config.idleWdata s.tick

/-- The outputs while the reset pin is `rst`. -/
def outputs (rst : Bool) (s : State) : Outputs where
  cmdReady := s.ctrl == .idle && !rst
  rspValid := s.ctrl == .resp
  rspData := s.rsp.data
  rspFound := s.rsp.found
  rspErr := s.rsp.err
  ioReqValid := ioReqValid s
  ioReqWrite := ioReqWrite s
  ioReqPort := ioReqPort s
  ioReqWdata := ioReqWdata s
  enum := if s.ctrl = .busy then Config.busyPosition s.tick else s.pos
  hdr := if s.ctrl = .busy then Config.busyHeader s.tick else s.hdr
  busy := s.ctrl != .idle

end Sys2Proof.Machine
end

