-- ==== Sys2Proof/Safety.lean ====
section
/-!
DEFINITION. The terms claims are stated in: what the environment gives a command, what a completed command leaves,
the invariants of the state, and the enumerator over a stable configuration space.
-/

namespace Sys2Proof.Machine

/-! ### What the environment gives -/

/-- A command that has just been accepted: no request is under way and transaction 0 is next. -/
abbrev Fresh (s : State) : Prop :=
  s.io = .quiet ∧ s.temps.txnIndex = 0

/-- No reset among the listed edges. -/
abbrev noReset (ps : List Pins) : Prop :=
  ∀ p ∈ ps, p.rst = false

/-- The first transaction that the listed edges serve, after any wait and with no reset: the request is accepted at one
edge (it is issued already when `issued`) and completed at a later one. `due` completions of aborted transactions may
come before or between, and are ignored (R221). The answer is the completion's `io_rsp_rdata`, which a write ignores,
what is due then, and the edges after it. -/
def servedOne : Bool → Nat → List Pins → Option (Dword × Nat × List Pins)
  | _, _, [] => none
  | issued, due, p :: ps =>
    if p.rst then none
    else if issued then
      if ownCompletion p due then some (p.ioRspRdata, lateAfter p due, ps) else servedOne true (lateAfter p due) ps
    else servedOne p.ioReqReady (lateAfter p due) ps

/-- The answers of the next `n` transactions, in order (R66: every transaction completes), what is due after them, and
the edges after them. -/
def served : Nat → Nat → List Pins → Option (List Dword × Nat × List Pins)
  | 0, due, ps => some ([], due, ps)
  | n + 1, due, ps =>
    match servedOne false due ps with
    | none => none
    | some (v, due, ps) =>
      match served n due ps with
      | none => none
      | some (vs, due, rest) => some (v :: vs, due, rest)

/-- ENUM_NEXT, not yet answered, still needs a transaction after the answers `vs` (R145): every probe they complete
found its slot absent, and the advance after it did not reach the end sentinel. -/
def enumNeedsMore (mf : Bool) (p : Position) : List Dword → Bool
  | _ :: d0 :: _ :: _ :: _ :: _ :: vs =>
    !atSentinel (advance mf p) && d0.extractLsb' 0 16 == Config.sentinelVendor &&
      enumNeedsMore false (advance mf p) vs
  | _ => !atSentinel (advance mf p)

/-- A command begun in `s` still needs a transaction after the answers `vs` (R235). -/
def needsMore (i : Instr) (s : State) (vs : List Dword) : Bool :=
  match i with
  | .encodeAddr .. | .enumInit => false
  | .enumNext => enumNeedsMore (multifunction s.hdr) s.pos vs
  | .rdDword .. | .wrDword .. | .rdWord .. | .rdByte .. | .rdBar .. | .wrBar .. => vs.length < 2

/-! ### What a command leaves -/

/-- A completed configuration read (R110): the address write, then the data read that targets it. -/
def readPair (a v : Dword) : List IoTxn :=
  [⟨.write Config.addrPort a, none, .wrote⟩, ⟨.read Config.dataPort, some a, .got v⟩]

/-- A completed configuration write (R111). -/
def writePair (a v : Dword) : List IoTxn :=
  [⟨.write Config.addrPort a, none, .wrote⟩, ⟨.write Config.dataPort v, some a, .wrote⟩]

/-- The six transactions of one completed probe (R143). -/
def probeTxns (p : Position) (d0 d2 d3 : Dword) : List IoTxn :=
  readPair (probeAddress p Config.headerOffset0) d0 ++ readPair (probeAddress p Config.headerOffset2) d2
    ++ readPair (probeAddress p Config.headerOffset3) d3

/-- `t` is where a command begun in `s` has responded `rsp`, after exactly the transactions `txns`, with the edges
`rest` still to come. The CMD_* registers are as they were latched (R25). -/
structure Answered (s t : State) (rsp : Response) (txns : List IoTxn) (rest : List Pins) : Prop where
  ctrl : t.ctrl = .resp
  rsp : t.rsp = rsp
  io : t.io = .quiet
  history : t.responder.history = s.responder.history ++ txns
  cmd : t.cmd = s.cmd
  inputs : t.inputs = rest

/-- The enumerator's position and the header registers are unchanged (R151). -/
structure EnumKept (s t : State) : Prop where
  pos : t.pos = s.pos
  hdr : t.hdr = s.hdr

/-- Every register of the block has the value of R40, and nothing is offered or outstanding (R220). -/
structure AtReset (t : State) : Prop where
  pos : t.pos = { bus := 256, dev := 0, fn := 0 }
  hdr : t.hdr = { vendor := 0xFFFF, device := 0, progIf := 0, subclass := 0, classCode := 0, headerType := 0 }
  ctrl : t.ctrl = .idle
  rsp : t.rsp = { data := 0, found := false, err := false }
  io : t.io = .quiet

/-- A transaction that completed: it was not aborted by a reset. -/
def IoTxn.completed (x : IoTxn) : Bool :=
  match x.ending with
  | .aborted _ => false
  | .wrote | .got _ => true

/-- A reset edge with these pins changes nothing at the responder, and no completion is due that was not before. -/
def AbortsNothing (p : Pins) (s : State) : Prop :=
  abortIo p s = s.responder ∧ lateAfterReset p s = lateAfter p s.lateDue

/-- A reset edge with these pins records one transaction at the responder, `req`, as aborted, and leaves in the address
latch what it held, or the address that `req` was writing. -/
def AbortRecords (p : Pins) (s : State) (req : IoReq) : Prop :=
  ∃ x took, (abortIo p s).history = s.responder.history ++ [x] ∧ x.req = req ∧ x.ending = .aborted took ∧
    ((abortIo p s).latch = s.responder.latch ∨ req = .write Config.addrPort (abortIo p s).latch)

/-- The values a list of transactions wrote, or tried to write, to the address port, as numbers. -/
def addressesOf (h : List IoTxn) : List Nat :=
  h.filterMap fun x => match x.req with
    | .write port a => if port = Config.addrPort then some a.toNat else none
    | .read _ => none

/-! ### Invariants -/

/-- The reachable positions of R23. -/
def posOk (p : Position) (h : Header) : Bool :=
  decide (p.bus ≤ Config.sentinelBus) &&
    (p.bus != Config.sentinelBus || p.dev == 0 && p.fn == 0 && h.vendor == Config.sentinelVendor)

/-- A request is under way. -/
def ioActive : IoPhase → Bool
  | .quiet => false
  | _ => true

/-- The latched opcode is assigned: R84's 0x1..0x9. -/
def opAssigned (c : Command) : Bool :=
  decide (1 ≤ c.op) && decide (c.op ≤ 9)

/-- The control invariant of the block and its enumerator: R23 holds; an ENUM_NEXT that probes is not at the end
sentinel; and, by the model's choice of what a step is (assumptions 1 and 2), a request is under way exactly while BUSY
and a BUSY block runs an assigned command. -/
def enumInv (s : State) : Bool :=
  posOk s.pos s.hdr && ioActive s.io == (s.ctrl == .busy) && (s.ctrl != .busy || opAssigned s.cmd) &&
    (s.ctrl != .busy || s.cmd.op != 7 || !atSentinel s.pos)

/-- A value the block may write to the address port: bit 31 set, bits 30:24 and 1:0 clear (R81). -/
def legalAddress (a : Dword) : Bool :=
  a.getLsbD 31 && a.extractLsb' 24 7 == 0 && a.extractLsb' 0 2 == 0

/-- The only three requests the block makes: an address write, a data read, a data write (R50, R56, R208). -/
def legalReq : IoReq → Bool
  | .write port v => port == Config.addrPort && legalAddress v || port == Config.dataPort
  | .read port => port == Config.dataPort

/-- The request under way is one that `ok` accepts. -/
def ioReqOk (ok : IoReq → Bool) : IoPhase → Bool
  | .quiet => true
  | .offered req => ok req
  | .outstanding req => ok req

/-- The port invariant: every transaction made and every request under way is one of the three. -/
def portInv (s : State) : Bool :=
  s.responder.history.all (fun x => legalReq x.req) && ioReqOk legalReq s.io

/-- A data-port request. -/
def isData : IoReq → Bool
  | .write port _ => port == Config.dataPort
  | .read port => port == Config.dataPort

/-- The last transaction was a completed address write of `a`. -/
def justWrote (h : List IoTxn) (a : Dword) : Bool :=
  h.getLast? == some ⟨.write Config.addrPort a, none, .wrote⟩

/-- Every data-port transaction of a history comes right after the completed address write that names its target
(R57, R59, R117). `prev` is the transaction before the list. -/
def pairedAfter : Option IoTxn → List IoTxn → Bool
  | _, [] => true
  | prev, x :: xs =>
    (match x.target with
      | none => !isData x.req
      | some a => isData x.req && prev == some ⟨.write Config.addrPort a, none, .wrote⟩)
    && pairedAfter (some x) xs

/-- The pairing invariant: every data access of the history targets the address written just before it; the request
under way is a data access exactly at the odd transaction numbers, and then the address latch holds the value just
written. -/
def pairInv (s : State) : Bool :=
  pairedAfter none s.responder.history &&
    ioReqOk
      (fun req => (isData req == (s.temps.txnIndex % 2 == 1)) &&
        (isData req && justWrote s.responder.history s.responder.latch ||
          match req with | .write port _ => port == Config.addrPort | .read _ => false)) s.io &&
    (s.io != .quiet || s.ctrl != .busy)

/-! ### The enumerator over a stable configuration space -/

/-- The value of a position in ascending (bus, device, function) order (R148). -/
def positionKey (p : Position) : Nat :=
  (p.bus.toNat * 32 + p.dev.toNat) * 8 + p.fn.toNat

/-- A slot: bus, device and function numbers in range. -/
def slot (b : BitVec 8) (d : BitVec 5) (f : BitVec 3) : Position :=
  { bus := b.setWidth 9, dev := d, fn := f }

/-- The end-sentinel position (256, 0, 0). -/
def sentinelPosition : Position :=
  { bus := Config.sentinelBus, dev := 0, fn := 0 }

/-- The header a slot shows when every read of a dword returns what `cfg` gives for its address (STABLE_CFG, R150). -/
def headerAt (cfg : Dword → Dword) (p : Position) : Header :=
  headerOf (cfg (probeAddress p Config.headerOffset0)) (cfg (probeAddress p Config.headerOffset2))
    (cfg (probeAddress p Config.headerOffset3))

/-- One round of the loop of R145 over a stable configuration space: advance, then probe. -/
def enumVisit (cfg : Dword → Dword) (e : Position × Header) : Position × Header :=
  let p := advance (multifunction e.2) e.1
  (p, if atSentinel p then { e.2 with vendor := Config.sentinelVendor } else headerAt cfg p)

/-- The loop of R145 over a stable configuration space, at most `n` rounds. -/
def enumPure (cfg : Dword → Dword) : Nat → Position × Header → Position × Header
  | 0, e => e
  | n + 1, e =>
    let e := enumVisit cfg e
    if atSentinel e.1 || present e.2 then e else enumPure cfg n e

/-- The position and header after `n` rounds of a pass that starts at the end sentinel (a pass goes round whether or
not the command ended at a yield). -/
def passAfter (cfg : Dword → Dword) (h : Header) : Nat → Position × Header
  | 0 => (sentinelPosition, { h with vendor := Config.sentinelVendor })
  | n + 1 => enumVisit cfg (passAfter cfg h n)

/-- Slot `p` is probed in the pass: some round visits it, and no round up to it reached the end sentinel. -/
def Probed (cfg : Dword → Dword) (h : Header) (p : Position) : Prop :=
  ∃ n, (passAfter cfg h (n + 1)).1 = p ∧ ∀ k ≤ n, atSentinel (passAfter cfg h (k + 1)).1 = false

/-- Every completed data read of `xs` returned what `cfg` gives for its target. -/
def ReadsFrom (cfg : Dword → Dword) (xs : List IoTxn) : Prop :=
  ∀ a v, (⟨.read Config.dataPort, some a, .got v⟩ : IoTxn) ∈ xs → v = cfg a

end Sys2Proof.Machine
end

