-- ==== Sys2Proof/Certificates/Slice0/Obligations.lean ====
section
/-!
DEFINITION. The statements about the block that the provers prove. Each docstring names the rules of spec/ it
formalises.

`exec i s` is a whole command. Where a command needs the I/O responder, `served n s.lateDue s.inputs` says that
the listed edges accept and complete `n` transactions, after any waits and with no reset (R66): its answers are what
the reads return (CFG_ORACLE, R6), so a statement over all `s` holds for every behaviour of the responder.
-/

open Sys2Proof Sys2Proof.Machine

/-! ### Address codec -/

/-- R80: the layout of the configuration-address value, for all operands. -/
def Obligations.EncodedAddressHasTheLayout : Prop :=
  ∀ bus dev fn off : Byte,
    let a := cfgAddress bus dev fn off
    a.getLsbD 31 = true ∧ a.extractLsb' 24 7 = 0 ∧ a.extractLsb' 16 8 = bus ∧
      a.extractLsb' 11 5 = dev.extractLsb' 0 5 ∧ a.extractLsb' 8 3 = fn.extractLsb' 0 3 ∧
      a.extractLsb' 2 6 = off.extractLsb' 2 6 ∧ a.extractLsb' 0 2 = 0

/-- The spec's own inference R82: the decoded fields of any value, and the round trip modulo masking. -/
def Obligations.DecodedAddressIsTheMaskedOperands : Prop :=
  (∀ a : Dword, ∃ b d f o : Byte, cfgFields a = (b, d, f, o, a.getLsbD 31) ∧
      b = a.extractLsb' 16 8 ∧ d.toNat = (a.extractLsb' 11 5).toNat ∧ f.toNat = (a.extractLsb' 8 3).toNat ∧
      o = a.extractLsb' 2 6 ++ 0#2) ∧
    ∀ bus dev fn off : Byte,
      cfgFields (cfgAddress bus dev fn off) = (bus, dev &&& 0x1F, fn &&& 0x07, off &&& 0xFC, true)

/-- The spec's own inference R102: masking first changes nothing, and two operand tuples encode alike exactly when
their masked tuples are equal. -/
def Obligations.AddressesAgreeExactlyOnMaskedOperands : Prop :=
  (∀ bus dev fn off : Byte, cfgAddress bus dev fn off = cfgAddress bus (dev &&& 0x1F) (fn &&& 0x07) (off &&& 0xFC)) ∧
    ∀ bus dev fn off bus' dev' fn' off' : Byte,
      cfgAddress bus dev fn off = cfgAddress bus' dev' fn' off' ↔
        bus = bus' ∧ dev &&& 0x1F = dev' &&& 0x1F ∧ fn &&& 0x07 = fn' &&& 0x07 ∧ off &&& 0xFC = off' &&& 0xFC

/-- R101: ENCODE answers the address and changes the response registers and CTRL only, with no I/O. -/
def Obligations.EncodeAnswersTheAddress : Prop :=
  (∀ c : Command, c.op = 0x1 → c.decode = .ok (.encodeAddr c.bus c.dev c.fn c.arg)) ∧
    (∀ (bus dev fn off : Byte) (s : State), s.io = .quiet →
      exec (.encodeAddr bus dev fn off) s =
        .next { s with rsp := ⟨cfgAddress bus dev fn off, false, false⟩, ctrl := .resp }) ∧
    cfgAddress 1 2 3 0x10 = 0x80011310 ∧ cfgAddress 0 0 0 0 = 0x80000000 ∧
    cfgAddress 0xFF 0xFF 0xFF 0xFF = 0x80FFFFFC

/-! ### Config accessor and BAR accessor -/

/-- R112 (and R110): RD_DWORD makes the address write and then the data read, answers the dword as it was read, and
leaves the enumerator and header registers unchanged. -/
def Obligations.RdDwordAnswersTheDword : Prop :=
  (∀ c : Command, c.op = 0x2 → c.decode = .ok (.rdDword c.bus c.dev c.fn c.arg)) ∧
    ∀ (bus dev fn off : Byte) (s : State) (x v : Dword) (due : Nat) (rest : List Pins),
      Fresh s → served 2 s.lateDue s.inputs = some ([x, v], due, rest) →
        ∃ t, exec (.rdDword bus dev fn off) s = .next t ∧
          Answered s t ⟨v, false, false⟩ (readPair (cfgAddress bus dev fn off) v) rest ∧ EnumKept s t

/-- R113 (and R111): WR_DWORD makes the address write and then the data write of the whole dword, answers 0, and
leaves the enumerator and header registers unchanged. -/
def Obligations.WrDwordWritesTheDword : Prop :=
  (∀ c : Command, c.op = 0x3 → c.decode = .ok (.wrDword c.bus c.dev c.fn c.arg c.wdata)) ∧
    ∀ (bus dev fn off : Byte) (value : Dword) (s : State) (x y : Dword) (due : Nat) (rest : List Pins),
      Fresh s → served 2 s.lateDue s.inputs = some ([x, y], due, rest) →
        ∃ t, exec (.wrDword bus dev fn off value) s = .next t ∧
          Answered s t ⟨0, false, false⟩ (writePair (cfgAddress bus dev fn off) value) rest ∧ EnumKept s t

/-- R114: RD_WORD answers the high half of the dword when bit 1 of the offset is set, else the low half,
zero-extended; bit 0 is ignored. -/
def Obligations.RdWordAnswersTheSelectedHalf : Prop :=
  (∀ c : Command, c.op = 0x4 → c.decode = .ok (.rdWord c.bus c.dev c.fn c.arg)) ∧
    ∀ (bus dev fn off : Byte) (s : State) (x v : Dword) (due : Nat) (rest : List Pins),
      Fresh s → served 2 s.lateDue s.inputs = some ([x, v], due, rest) →
        ∃ t, exec (.rdWord bus dev fn off) s = .next t ∧
          Answered s t
            ⟨if off.getLsbD 1 then (v.extractLsb' 16 16).setWidth 32 else (v.extractLsb' 0 16).setWidth 32, false, false⟩
            (readPair (cfgAddress bus dev fn off) v) rest ∧ EnumKept s t

/-- R115: RD_BYTE answers byte `off & 3` of the dword, zero-extended. -/
def Obligations.RdByteAnswersTheSelectedByte : Prop :=
  (∀ c : Command, c.op = 0x5 → c.decode = .ok (.rdByte c.bus c.dev c.fn c.arg)) ∧
    ∀ (bus dev fn off : Byte) (s : State) (x v : Dword) (due : Nat) (rest : List Pins),
      Fresh s → served 2 s.lateDue s.inputs = some ([x, v], due, rest) →
        ∃ t, exec (.rdByte bus dev fn off) s = .next t ∧
          Answered s t ⟨(v.extractLsb' (8 * (off.toNat % 4)) 8).setWidth 32, false, false⟩
            (readPair (cfgAddress bus dev fn off) v) rest ∧ EnumKept s t

/-- R181: RD_BAR reads the dword at offset (0x10 + 4 * index) mod 256, for every index. -/
def Obligations.RdBarAnswersTheBar : Prop :=
  (∀ c : Command, c.op = 0x8 → c.decode = .ok (.rdBar c.bus c.dev c.fn c.arg)) ∧
    ∀ (bus dev fn index : Byte) (s : State) (x v : Dword) (due : Nat) (rest : List Pins),
      Fresh s → served 2 s.lateDue s.inputs = some ([x, v], due, rest) →
        ∃ t, exec (.rdBar bus dev fn index) s = .next t ∧
          Answered s t ⟨v, false, false⟩
            (readPair (cfgAddress bus dev fn (BitVec.ofNat 8 (0x10 + 4 * index.toNat))) v) rest ∧ EnumKept s t

/-- R182: WR_BAR writes the dword at offset (0x10 + 4 * index) mod 256, for every index. -/
def Obligations.WrBarWritesTheBar : Prop :=
  (∀ c : Command, c.op = 0x9 → c.decode = .ok (.wrBar c.bus c.dev c.fn c.arg c.wdata)) ∧
    ∀ (bus dev fn index : Byte) (value : Dword) (s : State) (x y : Dword) (due : Nat) (rest : List Pins),
      Fresh s → served 2 s.lateDue s.inputs = some ([x, y], due, rest) →
        ∃ t, exec (.wrBar bus dev fn index value) s = .next t ∧
          Answered s t ⟨0, false, false⟩
            (writePair (cfgAddress bus dev fn (BitVec.ofNat 8 (0x10 + 4 * index.toNat))) value) rest ∧ EnumKept s t

/-- R180: the BAR offset is the 8-bit sum, a multiple of 4, and depends only on the index mod 64. -/
def Obligations.BarOffsetIsTheEightBitSum : Prop :=
  ∀ index : Byte,
    (barOffset index).toNat = (0x10 + 4 * index.toNat) % 256 ∧ (barOffset index).toNat % 4 = 0 ∧
      barOffset index = barOffset (BitVec.ofNat 8 (index.toNat % 64))

/-- R183, with the wrap at index 60 that it marks as derived: what each index reaches; and, since a BAR command is
the dword command at that offset, no index raises anything. -/
def Obligations.EveryBarIndexIsAccepted : Prop :=
  (∀ index : Byte,
    (index.toNat ≤ 59 → (barOffset index).toNat = 0x10 + 4 * index.toNat) ∧
      (60 ≤ index.toNat ∧ index.toNat ≤ 63 → (barOffset index).toNat = 4 * (index.toNat - 60)) ∧
      (64 ≤ index.toNat → barOffset index = barOffset (index - 64))) ∧
    ∀ (bus dev fn index : Byte) (value : Dword) (s : State),
      exec (.rdBar bus dev fn index) s = exec (.rdDword bus dev fn (barOffset index)) s ∧
        exec (.wrBar bus dev fn index value) s = exec (.wrDword bus dev fn (barOffset index) value) s

/-- R116: a word or byte read makes exactly the transactions of the dword read at the same offset, whatever the edges
do; only RSP_DATA differs. -/
def Obligations.NarrowReadsMakeTheDwordTransactions : Prop :=
  ∀ (bus dev fn off : Byte) (s t w b : State),
    exec (.rdDword bus dev fn off) s = .next t → exec (.rdWord bus dev fn off) s = .next w →
      exec (.rdByte bus dev fn off) s = .next b →
        { w with rsp := { w.rsp with data := t.rsp.data } } = t ∧
          { b with rsp := { b.rsp with data := t.rsp.data } } = t

/-- R53: the byte lanes of a transfer at byte offset `off`: byte `(off & 0xFC) + i` in bits 8i+7 : 8i. RD_BYTE's
answer is the configuration byte at its own offset. -/
def Obligations.TransfersAreLittleEndian : Prop :=
  ∀ (bus dev fn off : Byte) (v : Dword),
    let a := cfgAddress bus dev fn off
    let k := configByteKey bus dev fn (off &&& 0xFC)
    transferBytes a v =
        [(k, v.extractLsb' 0 8), (k + 1, v.extractLsb' 8 8), (k + 2, v.extractLsb' 16 8), (k + 3, v.extractLsb' 24 8)] ∧
      (configByteKey bus dev fn off, (byteOf v off).setWidth 8) ∈ transferBytes a v

/-! ### Function enumerator -/

/-- R144: ENUM_INIT puts the position at (256,0,0) and HDR_VENDOR at 0xFFFF, leaves the other header registers and all
else, and does no I/O; it is idempotent. -/
def Obligations.EnumInitSetsTheInitState : Prop :=
  (∀ c : Command, c.op = 0x6 → c.decode = .ok .enumInit) ∧
    (∀ s : State, s.io = .quiet →
      exec .enumInit s =
        .next { s with
          pos := ⟨256, 0, 0⟩, hdr := { s.hdr with vendor := 0xFFFF }, rsp := ⟨0, false, false⟩, ctrl := .resp }) ∧
    ∀ s t : State, s.io = .quiet → exec .enumInit s = .next t → exec .enumInit t = .next t

/-- R141: the multifunction predicate of the held header. -/
def Obligations.MultifunctionReadsTheHeldHeader : Prop :=
  ∀ h : Header, multifunction h = true ↔ h.vendor ≠ 0xFFFF ∧ h.headerType.getLsbD 7 = true

/-- R142: every case of `advance`. -/
def Obligations.AdvanceTakesOneStep : Prop :=
  ∀ (mf : Bool) (p : Position),
    let q := advance mf p
    (256 ≤ p.bus.toNat → q = ⟨0, 0, 0⟩) ∧
      (p.bus.toNat < 256 → mf = true → p.fn.toNat < 7 →
        q.bus = p.bus ∧ q.dev = p.dev ∧ q.fn.toNat = p.fn.toNat + 1) ∧
      (p.bus.toNat < 256 → (mf = false ∨ p.fn = 7) → p.dev.toNat < 31 →
        q.bus = p.bus ∧ q.dev.toNat = p.dev.toNat + 1 ∧ q.fn = 0) ∧
      (p.bus.toNat < 256 → (mf = false ∨ p.fn = 7) → p.dev = 31 →
        q.bus.toNat = p.bus.toNat + 1 ∧ q.dev = 0 ∧ q.fn = 0)

/-- R145 and R143: one round of ENUM_NEXT's loop. After the advance the command reports exhaustion at the sentinel,
with no I/O; or it makes the six transactions of the probe, and yields a present function; or it goes round again from
the state that the absent probe leaves. -/
def Obligations.EnumNextFollowsItsLoop : Prop :=
  (∀ c : Command, c.op = 0x7 → c.decode = .ok .enumNext) ∧
    ∀ s : State, Fresh s →
      let p := advance (multifunction s.hdr) s.pos
      (atSentinel p = true →
        exec .enumNext s =
          .next { s with
            pos := p, hdr := { s.hdr with vendor := 0xFFFF }, rsp := ⟨0, false, false⟩, ctrl := .resp }) ∧
        ∀ (x0 d0 x2 d2 x3 d3 : Dword) (due : Nat) (rest : List Pins),
          atSentinel p = false → served 6 s.lateDue s.inputs = some ([x0, d0, x2, d2, x3, d3], due, rest) →
            (present (headerOf d0 d2 d3) = true →
              ∃ t, exec .enumNext s = .next t ∧ Answered s t ⟨0, true, false⟩ (probeTxns p d0 d2 d3) rest ∧
                t.pos = p ∧ t.hdr = headerOf d0 d2 d3) ∧
            (present (headerOf d0 d2 d3) = false →
              ∃ u, exec .enumNext s = exec .enumNext u ∧ Fresh u ∧ u.pos = p ∧ u.hdr = headerOf d0 d2 d3 ∧
                u.responder.history = s.responder.history ++ probeTxns p d0 d2 d3 ∧
                u.cmd = s.cmd ∧ u.rsp = s.rsp ∧ u.inputs = rest ∧ u.lateDue = due)

/-- R143: where the six header fields lie in the three dwords. -/
def Obligations.ProbeFieldsOfTheHeader : Prop :=
  ∀ d0 d2 d3 : Dword,
    let h := headerOf d0 d2 d3
    h.vendor.toNat = d0.toNat % 2 ^ 16 ∧ h.device.toNat = d0.toNat / 2 ^ 16 ∧
      h.progIf.toNat = d2.toNat / 2 ^ 8 % 2 ^ 8 ∧ h.subclass.toNat = d2.toNat / 2 ^ 16 % 2 ^ 8 ∧
      h.classCode.toNat = d2.toNat / 2 ^ 24 ∧ h.headerType.toNat = d3.toNat / 2 ^ 16 % 2 ^ 8

/-- The spec's own inference R149, with R236: ENUM_NEXT completes, from every position, when the edges serve as
many transactions as its bound; it then yielded a present function at a slot, or it reports exhaustion at (256,0,0)
with HDR_VENDOR = 0xFFFF. -/
def Obligations.EnumNextCompletes : Prop :=
  ∀ (s : State) (vs : List Dword) (due : Nat) (rest : List Pins),
    Fresh s → served Config.maxTransactions s.lateDue s.inputs = some (vs, due, rest) →
      ∃ t, exec .enumNext s = .next t ∧ t.ctrl = .resp ∧ t.cmd = s.cmd ∧
        (t.rsp = ⟨0, true, false⟩ ∧ present t.hdr = true ∧ t.pos.bus.toNat < 256 ∨
          t.rsp = ⟨0, false, false⟩ ∧ t.pos = ⟨256, 0, 0⟩ ∧ t.hdr.vendor = 0xFFFF)

/-- The spec's own inference R149: one ENUM_NEXT makes at most 8,192 probes, 49,152 transactions, whatever the
responder answers; it only adds to the history. -/
def Obligations.EnumNextMakesAtMost8192Probes : Prop :=
  ∀ s t : State, Fresh s → exec .enumNext s = .next t →
    ∃ new, t.responder.history = s.responder.history ++ new ∧ new.length ≤ 49152

/-- The spec's own inference R148, within one command: the values that ENUM_NEXT writes to the address port strictly
increase, so no slot is probed twice, whatever the responder answers. That they increase within a probe too rests on the
order of its three offsets, the spec's decision D9 (assumption 15). -/
def Obligations.EnumNextAddressesStrictlyIncrease : Prop :=
  ∀ s t : State, Fresh s → exec .enumNext s = .next t →
    ∃ new, t.responder.history = s.responder.history ++ new ∧ (addressesOf new).Pairwise (· < ·)

/-- The spec's own inference R148: every advance that does not start at the sentinel strictly increases the
position, whatever the flag. -/
def Obligations.AdvanceIncreasesThePosition : Prop :=
  ∀ (mf : Bool) (p : Position), p.bus.toNat < 256 → positionKey p < positionKey (advance mf p)

/-- The spec's own inference R147: an ENUM_NEXT at the end sentinel starts a new pass at (0,0,0), whatever the
header registers hold. -/
def Obligations.EnumNextAtTheSentinelStartsAPass : Prop :=
  ∀ s : State, Fresh s → 256 ≤ s.pos.bus.toNat → s.inputs = [] →
    ∃ t, exec .enumNext s = .next t ∧ t.ctrl = .busy ∧ t.pos = ⟨0, 0, 0⟩ ∧
      t.io = .offered (.write 0xCF8 0x80000000) ∧ t.hdr = s.hdr

/-- The spec's own inference R146: after exhaustion the position is (256,0,0) and HDR_VENDOR is 0xFFFF; the other header
registers are those of the command's last probe, its last six transactions, or where the command made no probe those
from before it. -/
def Obligations.ExhaustionLeavesTheInitPosition : Prop :=
  ∀ s t : State, Fresh s → exec .enumNext s = .next t → t.ctrl = .resp → t.rsp.found = false →
    t.pos = ⟨256, 0, 0⟩ ∧ t.hdr.vendor = 0xFFFF ∧
      (t.responder.history = s.responder.history ∧ t.hdr = { s.hdr with vendor := 0xFFFF } ∨
        ∃ earlier p d0 d2 d3,
          t.responder.history = s.responder.history ++ earlier ++ probeTxns p d0 d2 d3 ∧
            t.hdr = { headerOf d0 d2 d3 with vendor := 0xFFFF })

/-- R145 over a stable configuration space (the premise STABLE_CFG of R150): a completed ENUM_NEXT whose reads all
answer from `cfg` ends exactly where the pure loop over `cfg` ends, and RSP_FOUND says whether that is a present
function. -/
def Obligations.EnumNextRefinesThePureLoop : Prop :=
  ∀ (cfg : Dword → Dword) (s t : State) (new : List IoTxn),
    Fresh s → exec .enumNext s = .next t → t.ctrl = .resp →
      t.responder.history = s.responder.history ++ new → ReadsFrom cfg new →
        (t.pos, t.hdr) = enumPure cfg 8193 (s.pos, s.hdr) ∧
          t.rsp = ⟨0, present t.hdr && !atSentinel t.pos, false⟩

/-- The spec's own inference R150 (a), (b), (d): the slots of one pass over a stable configuration space. Function
0 of every device is probed; function f > 0 exactly when functions 0..f-1 are all present with bit 7 set; the pass
visits slots in ascending order and reaches the end sentinel after at most 65,536 probes. -/
def Obligations.PassProbesExactlyTheVisibleSlots : Prop :=
  ∀ (cfg : Dword → Dword) (h : Header),
    (∀ b d, Probed cfg h (slot b d 0)) ∧
      (∀ b d f, f ≠ 0 →
        (Probed cfg h (slot b d f) ↔ ∀ g, g < f → multifunction (headerAt cfg (slot b d g)) = true)) ∧
      (∃ n ≤ 65536, atSentinel (passAfter cfg h (n + 1)).1 = true ∧
        (∀ k < n, atSentinel (passAfter cfg h (k + 1)).1 = false) ∧
        ∀ j k, j < k → k < n →
          positionKey (passAfter cfg h (j + 1)).1 < positionKey (passAfter cfg h (k + 1)).1)

/-- The spec's own inference R151: the other commands and unassigned opcodes leave the enumerator and header
registers unchanged, however far they run, unless a reset comes first. -/
def Obligations.OtherCommandsKeepTheEnumerator : Prop :=
  (∀ (i : Instr) (s t : State), i ≠ .enumInit → i ≠ .enumNext → noReset s.inputs → exec i s = .next t →
      EnumKept s t) ∧
    ∀ s : State, EnumKept s (takeIllegalCommand s)

/-! ### Encoding and commands -/

/-- Decode and encode agree, for every command and every operand value (R83, R84, R86). -/
def Obligations.DecodeOfEncodeIsTheCommand : Prop :=
  ∀ i : Instr, decode (encode i) = .ok i

/-- R85, R86, R88: encoding what a word decodes to keeps the opcode and the fields the command reads, and writes every
ignored field as 0. -/
def Obligations.EncodeOfDecodeKeepsTheUsedFields : Prop :=
  ∀ (w : CommandWord) (i : Instr), decode w = .ok i →
    let c := Command.ofWord w
    let e := Command.ofWord (encode i)
    let usesNone := c.op = 6 ∨ c.op = 7
    let usesValue := c.op = 3 ∨ c.op = 9
    e.op = c.op ∧ (usesNone → e.bus = 0 ∧ e.dev = 0 ∧ e.fn = 0 ∧ e.arg = 0) ∧
      (¬ usesNone → e.bus = c.bus ∧ e.dev = c.dev ∧ e.fn = c.fn ∧ e.arg = c.arg) ∧
      (usesValue → e.wdata = c.wdata) ∧ (¬ usesValue → e.wdata = 0)

/-- R83: the places of the six fields in the command word, both ways. -/
def Obligations.CommandWordHoldsTheSixFields : Prop :=
  (∀ c : Command, Command.ofWord c.toWord = c) ∧ (∀ w : CommandWord, (Command.ofWord w).toWord = w) ∧
    ∀ c : Command, c.toWord.toNat =
      ((((c.op.toNat * 256 + c.bus.toNat) * 256 + c.dev.toNat) * 256 + c.fn.toNat) * 256 + c.arg.toNat) * 2 ^ 32
        + c.wdata.toNat

/-- A sanity check of the decoder on words written out from R83 and R84 (spec/95_test_vectors.md). -/
def Obligations.WrittenOutWordsDecode : Prop :=
  decode 0x10102031000000000 = .ok (.encodeAddr 1 2 3 0x10) ∧
    decode 0x200200804DEADBEEF = .ok (.rdDword 0 0x20 8 4) ∧
    decode 0x30003001012345678 = .ok (.wrDword 0 3 0 0x10 0x12345678) ∧
    decode 0x40000000600000000 = .ok (.rdWord 0 0 0 6) ∧
    decode 0x5000100FF00000000 = .ok (.rdByte 0 1 0 0xFF) ∧
    decode 0x6123456789ABCDEF0 = .ok .enumInit ∧
    decode 0x70000000000000000 = .ok .enumNext ∧
    decode 0x80000003B00000000 = .ok (.rdBar 0 0 0 59) ∧
    decode 0x902230A01E0000000 = .ok (.wrBar 2 0x23 0x0A 1 0xE0000000) ∧
    decode 0x00000000000000000 = .error (.unassignedOpcode 0) ∧
    decode 0xA0102030405060708 = .error (.unassignedOpcode 0xA) ∧
    decode 0xFFFFFFFFFFFFFFFFF = .error (.unassignedOpcode 0xF)

/-- R202 (and R85): the opcodes 0x0 and 0xA..0xF, and no others, are unassigned; such a command is accepted, changes
the response registers only, makes no transaction and responds (0, 0, 1). The next assigned command writes
RSP_ERR = 0. That the step which accepts the command also answers it, and that an IDLE block accepts at the first edge
after a reset too, are the model's choices (assumptions 1 and 21). -/
def Obligations.UnassignedOpcodeRespondsIllegal : Prop :=
  (∀ c : Command, (∃ e, c.decode = .error e) ↔ c.op = 0 ∨ 0xA ≤ c.op.toNat) ∧
    (∀ (s : State) (p : Pins) (ps : List Pins),
      s.ctrl = .idle → s.inputs = p :: ps → p.rst = false → p.cmdValid = true →
        (s.cmdOffer = .nothing ∨ s.cmdOffer = .waiting p.cmd) → (p.cmd.op = 0 ∨ 0xA ≤ p.cmd.op.toNat) →
          ∃ t, step s = .next t ∧ t.ctrl = .resp ∧ t.rsp = ⟨0, false, true⟩ ∧ t.io = .quiet ∧
            t.responder = s.responder ∧ EnumKept s t ∧ t.inputs = ps) ∧
    ∀ (i : Instr) (s t : State), exec i s = .next t → t.ctrl = .resp → t.rsp.err = false

/-- R27, R28: a command that has responded wrote RSP_ERR = 0, and RSP_FOUND = 0 unless it is ENUM_NEXT. -/
def Obligations.AssignedCommandsClearErrAndFound : Prop :=
  ∀ (i : Instr) (s t : State), exec i s = .next t → t.ctrl = .resp →
    t.rsp.err = false ∧ (i ≠ .enumNext → t.rsp.found = false)

/-- R200: every step of every state goes on to a next state. -/
def Obligations.NoStepStops : Prop :=
  ∀ s : State, ∃ t, step s = .next t

/-- R25: the latched fields stay unchanged while the command runs, unless a reset comes first. -/
def Obligations.LatchedFieldsStayUnchanged : Prop :=
  ∀ (i : Instr) (s t : State), noReset s.inputs → exec i s = .next t → t.cmd = s.cmd

/-- The spec's own inference R235: the exact number of transactions of a completed command. -/
def Obligations.CompletedCommandsMakeTheirTransactions : Prop :=
  (∀ (i : Instr) (s t : State), Fresh s → exec i s = .next t → t.ctrl = .resp →
    match i with
    | .encodeAddr .. | .enumInit => t.responder.history.length = s.responder.history.length
    | .enumNext => ∃ probes ≤ 8192, t.responder.history.length = s.responder.history.length + 6 * probes
    | _ => t.responder.history.length = s.responder.history.length + 2) ∧
    ∀ s : State, (takeIllegalCommand s).responder = s.responder

/-- R88: the assembler gives back the command of its own line, and refuses exactly the ill-formed lines. -/
def Obligations.AssemblerAcceptsExactlyWellFormedLines : Prop :=
  (∀ i : Instr, lineInstr (disassemble i) = some i ∧ assemble (disassemble i) = some (encode i)) ∧
    ∀ l : AsmLine, lineInstr l = none ↔ l.wellFormed = false

/-! ### Steps, handshakes and reset -/

/-- A step runs the decoded command: an idle block that is offered a command latches its fields (R25), is BUSY (R34)
and runs exec of what they decode to; and a BUSY block runs its latched command. That the step which accepts a command
also runs it, and that a BUSY step runs it on, is the model's choice of what one step is (assumption 1). That an IDLE
block accepts at the first edge after a reset too is its choice between R34 and R220 (assumption 21). -/
def Obligations.StepRunsTheDecodedCommand : Prop :=
  (∀ (s : State) (p : Pins) (ps : List Pins) (i : Instr),
    s.ctrl = .idle → s.inputs = p :: ps → p.rst = false → p.cmdValid = true →
      (s.cmdOffer = .nothing ∨ s.cmdOffer = .waiting p.cmd) → p.cmd.decode = .ok i →
        ∃ u, step s = exec i u ∧ Fresh u ∧ u.cmd = p.cmd ∧ u.ctrl = .busy ∧ u.rsp = s.rsp ∧
          u.responder = s.responder ∧ EnumKept s u ∧ u.inputs = ps ∧ u.lateDue = lateAfter p s.lateDue) ∧
    ∀ (s : State) (i : Instr), s.ctrl = .busy → s.cmd.decode = .ok i → step s = exec i s

/-- The host's word on the command channel (assumption 13) is the command that the next step accepts and runs, right
after a reset too (assumption 21). -/
def Obligations.OfferedWordIsTheNextCommand : Prop :=
  ∀ (s : State) (nbits w : Nat) (i : Instr), decodeTableWord nbits w = some i →
    ∃ u, step (s.withFetchWord nbits w) = exec i u ∧ Fresh u ∧ u.ctrl = .busy ∧ u.cmd.decode = .ok i ∧
      u.rsp = s.rsp ∧ u.responder = s.responder ∧ EnumKept s u ∧ u.inputs = s.inputs ∧ u.lateDue = s.lateDue

/-- R35, R206, R230: a response is held until it is taken, and no command is accepted meanwhile, not even at the edge
that takes it; the response registers keep their values until the next command responds. -/
def Obligations.ResponseIsHeldUntilTaken : Prop :=
  (∀ (s : State) (p : Pins) (ps : List Pins), s.ctrl = .resp → s.inputs = p :: ps → p.rst = false →
    ∃ t, step s = .next t ∧ t.ctrl = (if p.rspReady then .idle else .resp) ∧ t.rsp = s.rsp ∧ t.cmd = s.cmd ∧
      t.io = s.io ∧ t.responder = s.responder ∧ EnumKept s t ∧ t.inputs = ps) ∧
    ∀ (i : Instr) (s t : State), exec i s = .next t → t.ctrl = .busy → t.rsp = s.rsp

/-- R231: a completion with nothing outstanding changes no register, not in IDLE and not while a request is only offered.
The third clause is the model's choice between R221 and R37 (assumption 11, unsafe for a block that has only the pins): a
completion that is an aborted transaction's (`isLate`) changes no register either while a new transaction is
outstanding. -/
def Obligations.SpuriousCompletionIsIgnored : Prop :=
  (∀ (s : State) (p : Pins) (ps : List Pins), s.ctrl = .idle → s.inputs = p :: ps → p.rst = false →
    p.cmdValid = false →
      step s = .next { s with
        cmdOffer := s.cmdOffer.watch p, tick := s.tick + 1, lateDue := lateAfter p s.lateDue, inputs := ps }) ∧
    (∀ (i : Instr) (s : State) (p : Pins) (ps : List Pins) (req : IoReq), s.io = .offered req → p.rst = false →
      s.inputs = p :: ps →
        exec i s = exec i { s with
          inputs := ps, ctrl := .busy, cmdOffer := s.cmdOffer.watch p, tick := s.tick + 1,
          lateDue := lateAfter p s.lateDue, io := if p.ioReqReady then .outstanding req else .offered req }) ∧
    ∀ (i : Instr) (s : State) (p : Pins) (ps : List Pins) (req : IoReq), s.io = .outstanding req → p.rst = false →
      s.inputs = p :: ps → isLate p s.lateDue = true →
        exec i s = exec i { s with
          inputs := ps, ctrl := .busy, cmdOffer := s.cmdOffer.watch p, tick := s.tick + 1,
          lateDue := s.lateDue - 1 }

/-- R212: a command whose next transaction is never accepted, or never completed, stays BUSY and gives no response:
whether a request is already under way, or the command has just been accepted, or the edges serve some of its
transactions (the answers `vs`) and not the next one that it needs. -/
def Obligations.UnservedCommandHangs : Prop :=
  (∀ (i : Instr) (s : State), ioActive s.io = true → noReset s.inputs →
    servedOne (match s.io with | .outstanding _ => true | _ => false) s.lateDue s.inputs = none →
      ∃ t, exec i s = .next t ∧ t.ctrl = .busy ∧ t.rsp = s.rsp ∧ t.responder = s.responder ∧ EnumKept s t ∧
        ioActive t.io = true) ∧
    (∀ (i : Instr) (s : State), Fresh s → noReset s.inputs → servedOne false s.lateDue s.inputs = none →
      (∀ bus dev fn off, i ≠ .encodeAddr bus dev fn off) → i ≠ .enumInit →
        (i = .enumNext → atSentinel (advance (multifunction s.hdr) s.pos) = false) →
          ∃ t, exec i s = .next t ∧ t.ctrl = .busy ∧ t.rsp = s.rsp ∧ t.responder = s.responder) ∧
    ∀ (i : Instr) (s : State) (vs : List Dword) (due : Nat) (rest : List Pins), Fresh s → noReset s.inputs →
      served vs.length s.lateDue s.inputs = some (vs, due, rest) →
        served (vs.length + 1) s.lateDue s.inputs = none → needsMore i s vs = true →
          ∃ (t : State) (new : List IoTxn), exec i s = .next t ∧ t.ctrl = .busy ∧ t.rsp = s.rsp ∧ t.cmd = s.cmd ∧
            ioActive t.io = true ∧ t.responder.history = s.responder.history ++ new ∧ new.length = vs.length ∧
            (∀ x ∈ new, x.completed = true) ∧
            ∀ (n : Nat) (v : Dword), (new[n]?).map IoTxn.ending = some (TxnEnd.got v) → vs[n]? = some v

/-- R25: once a command is accepted, the command pins and the response pin have no effect on it. -/
def Obligations.CommandPinsHaveNoEffectWhileBusy : Prop :=
  ∀ (i : Instr) (s : State) (qs : List Pins),
    List.Forall₂ (fun p q : Pins => p.rst = q.rst ∧ p.ioReqReady = q.ioReqReady ∧ p.ioRspValid = q.ioRspValid ∧
      p.ioRspRdata = q.ioRspRdata ∧ p.ioRspLate = q.ioRspLate) s.inputs qs →
      ∃ t u, exec i s = .next t ∧ exec i { s with inputs := qs } = .next u ∧
        u = { t with inputs := u.inputs, cmdOffer := u.cmdOffer }

/-- The spec's own inference R59: nothing the address latch held before a command reaches any result of it: runs
that differ only in the latch end alike, but for the latch itself. -/
def Obligations.OldLatchReachesNoResult : Prop :=
  ∀ (i : Instr) (s : State) (a : Dword), Fresh s →
    ∃ t u, exec i s = .next t ∧ exec i { s with responder := { s.responder with latch := a } } = .next u ∧
      u = { t with responder := { t.responder with latch := u.responder.latch } }

/-- R40: the reset values. -/
def Obligations.ResetStateHasTheResetValues : Prop :=
  let s := State.reset
  s.ctrl = .idle ∧ s.pos.bus = 256 ∧ s.pos.dev = 0 ∧ s.pos.fn = 0 ∧ s.hdr.vendor = 0xFFFF ∧ s.hdr.device = 0 ∧
    s.hdr.progIf = 0 ∧ s.hdr.subclass = 0 ∧ s.hdr.classCode = 0 ∧ s.hdr.headerType = 0 ∧ s.rsp.data = 0 ∧
    s.rsp.found = false ∧ s.rsp.err = false ∧ (outputs true s).ioReqValid = false ∧ (outputs true s).rspValid = false

/-- R220, R40 (and R206, R221): an edge with rst = 1 wins in IDLE, RESP and BUSY: every register takes its reset value,
no command is accepted, and nothing is offered after it. The premise on a BUSY state is part of `enumInv`, which every
step keeps. In the middle of a running command: where exec leaves the block IDLE, a reset edge `p` was listed, the
command had run BUSY over the edges before it, and the edge left every register at its reset value, the edges after it
still to come. What the responder holds then is said in `ResetEdgeAbortsAtTheResponder`. That cmd_ready is 1 right after
the reset edge, once rst is 0, is the model's choice between R33 and R220 (assumption 21). -/
def Obligations.ResetEdgeRestoresEveryRegister : Prop :=
  (∀ (s : State) (p : Pins) (ps : List Pins), s.inputs = p :: ps → p.rst = true →
    (s.ctrl = .busy → ioActive s.io = true ∧ ∃ i, s.cmd.decode = .ok i) →
      ∃ t, step s = .next t ∧ AtReset t ∧ t.inputs = ps ∧
        (outputs true t).cmdReady = false ∧ (outputs true t).rspValid = false ∧
        (outputs true t).ioReqValid = false ∧ (outputs false t).cmdReady = true) ∧
    ∀ (i : Instr) (s t : State), exec i s = .next t → t.ctrl = .idle →
      AtReset t ∧
        ∃ before p u, s.inputs = before ++ p :: t.inputs ∧ noReset before ∧ p.rst = true ∧
          exec i { s with inputs := before } = .next u ∧ u.ctrl = .busy

/-- R221, with R222, which the spec marks as its own inference: what an aborted command leaves at the responder. Nothing
is added unless a transaction was issued. That one which was issued is recorded, as aborted, is the model's choice
(assumption 10); so is that a request accepted at the reset edge may be either (assumption 19). Of the latch the abort
leaves what it was, or the address that was being written. The completion of the aborted transaction is due after the
edge, one more than before, unless it arrives at that edge (assumption 11). -/
def Obligations.AbortRecordsTheIssuedTransaction : Prop :=
  ∀ (p : Pins) (s : State),
    ((∀ req, s.io ≠ .outstanding req) → (∀ req, s.io = .offered req → p.ioReqReady = false) → AbortsNothing p s) ∧
      (∀ req, s.io = .outstanding req →
        AbortRecords p s req ∧
          (ownCompletion p s.lateDue = false → lateAfterReset p s = lateAfter p s.lateDue + 1) ∧
          (ownCompletion p s.lateDue = true → lateAfterReset p s = s.lateDue)) ∧
      ∀ req, s.io = .offered req →
        AbortsNothing p s ∨ AbortRecords p s req ∧ lateAfterReset p s = lateAfter p s.lateDue + 1

/-- The spec's own inference R223: reset leaves what ENUM_INIT leaves in every register ENUM_INIT writes for the
enumerator. -/
def Obligations.ResetIsTheInitState : Prop :=
  ∀ s t : State, s.io = .quiet → exec .enumInit s = .next t →
    t.pos = State.reset.pos ∧ t.hdr.vendor = State.reset.hdr.vendor

/-- R33, R35, R38: the output pins: cmd_ready only in IDLE with rst = 0, rsp_valid only in RESP, busy outside IDLE, the
response pins always, and the status pins whenever the block is not BUSY. That rsp_valid shows CTRL at an edge with
rst = 1 too is the model's choice between R35 and R220 (assumption 19, unsafe for exactly this claim); that cmd_ready is
1 right after a reset edge, once rst is 0, is its choice between R33 and R220 (assumption 21). -/
def Obligations.OutputsShowTheRegisters : Prop :=
  ∀ (rst : Bool) (s : State),
    let o := outputs rst s
    (o.cmdReady = true ↔ s.ctrl = .idle ∧ rst = false) ∧ (o.rspValid = true ↔ s.ctrl = .resp) ∧
      (o.busy = true ↔ s.ctrl ≠ .idle) ∧ o.rspData = s.rsp.data ∧ o.rspFound = s.rsp.found ∧ o.rspErr = s.rsp.err ∧
      (s.ctrl ≠ .busy → o.enum = s.pos ∧ o.hdr = s.hdr)

/-- R36, R37: the request pins: they show the offered request, the port is always one of the two, and every field is held
stable over the edges that do not accept the request. That io_req_wdata of a waiting read is held too is the model's
choice between R37 and I15 (assumption 7, unsafe for exactly this claim). That io_req_valid shows the request at an edge
with rst = 1 too is the model's choice between R37 and R220 (assumption 19, unsafe for exactly this claim). -/
def Obligations.RequestPinsShowTheOfferedRequest : Prop :=
  (∀ (rst : Bool) (s : State), portInv s = true →
    let o := outputs rst s
    (o.ioReqPort = 0xCF8 ∨ o.ioReqPort = 0xCFC) ∧
      (o.ioReqValid = true ↔
        s.io = .offered (if o.ioReqWrite then .write o.ioReqPort o.ioReqWdata else .read o.ioReqPort))) ∧
    ∀ (i : Instr) (s : State), ioReqValid s = true → (∀ p ∈ s.inputs, p.rst = false ∧ p.ioReqReady = false) →
      ∃ t, exec i s = .next t ∧ ioReqValid t = true ∧ ioReqWrite t = ioReqWrite s ∧ ioReqPort t = ioReqPort s ∧
        ioReqWdata t = ioReqWdata s

/-! ### Invariants that every step keeps -/

/-- The spec's own inference R23: the reachable positions; and no probe at the end sentinel (R145). With them, by the
model's choice of what a step and an edge are (assumptions 1 and 2): a request is under way exactly while BUSY, and a
BUSY block holds an assigned command. -/
def Obligations.StepKeepsTheEnumeratorInvariant : Prop :=
  ∀ s t : State, enumInv s = true → step s = .next t → enumInv t = true

/-- R50, R56, R81: the only transactions ever made are the address write, with bit 31 set and bits 30:24 and 1:0
clear, the data read and the data write. -/
def Obligations.StepKeepsThePortInvariant : Prop :=
  ∀ s t : State, portInv s = true → step s = .next t → portInv t = true

/-- R57 and R117, and the spec's own inference R59: every data access comes right after the completed address write
that names its target. -/
def Obligations.StepKeepsThePairInvariant : Prop :=
  ∀ s t : State, pairInv s = true → step s = .next t → pairInv t = true

/-- R63: the responder's history is one list in issue order: a step only adds to its end. -/
def Obligations.StepOnlyAddsToTheHistory : Prop :=
  ∀ s t : State, step s = .next t → ∃ new, t.responder.history = s.responder.history ++ new

/-- The three invariants hold after reset. -/
def Obligations.ResetHasTheInvariants : Prop :=
  enumInv State.reset = true ∧ portInv State.reset = true ∧ pairInv State.reset = true

/-- The spec's own inference R23, its last sentence: after an ENUM_NEXT that yielded, HDR_VENDOR is not the
sentinel and the position is a slot. -/
def Obligations.YieldShowsAPresentFunction : Prop :=
  ∀ s t : State, Fresh s → exec .enumNext s = .next t → t.ctrl = .resp → t.rsp.found = true →
    t.hdr.vendor ≠ 0xFFFF ∧ t.pos.bus.toNat < 256

/-- R221, with R222, the spec's own inference, and by the model's choices of assumptions 10, 11 and 19: what a reset edge
leaves at the responder, in IDLE, RESP and BUSY and in the middle of a running command: the transactions completed
before it and what `abortIo` adds, and what is due by `lateAfterReset` (`AbortRecordsTheIssuedTransaction` says what
these are). -/
def Obligations.ResetEdgeAbortsAtTheResponder : Prop :=
  (∀ (s : State) (p : Pins) (ps : List Pins), s.inputs = p :: ps → p.rst = true →
    (s.ctrl = .busy → ioActive s.io = true ∧ ∃ i, s.cmd.decode = .ok i) →
      ∃ t, step s = .next t ∧ t.responder = abortIo p s ∧ t.lateDue = lateAfterReset p s) ∧
    ∀ (i : Instr) (s t : State), exec i s = .next t → t.ctrl = .idle →
      ∃ before p u done, s.inputs = before ++ p :: t.inputs ∧ noReset before ∧ p.rst = true ∧
        exec i { s with inputs := before } = .next u ∧ u.ctrl = .busy ∧
        u.responder.history = s.responder.history ++ done ∧ (∀ x ∈ done, x.completed = true) ∧
        t.responder = abortIo p u ∧ t.lateDue = lateAfterReset p u

/-! ### Read-modify-write -/

/-- The spec's own inference R234, with R118: a read-modify-write of a dword takes two commands, and while the command
master issues no other in between, the transactions are those of the read and then those of the write, of what it
merged from the dword that was read, with no other of the block between them. That other agents stay off the ports is
assumption 12, the master's part is assumption 20, and that a command right after a reset is accepted is assumption
21. -/
def Obligations.ReadModifyWriteTakesTwoCommands : Prop :=
  ∀ (bus dev fn off : Byte) (merge : Dword → Dword) (s : State) (x v y z : Dword) (due : Nat) (rest : List Pins),
    s.ctrl ≠ .busy → s.cmdOffer = .nothing → (∀ p ∈ s.inputs, p.cmdValid = false) →
      served 4 s.lateDue s.inputs = some ([x, v, y, z], due, rest) →
        ∃ t, readModifyWrite bus dev fn off merge [] s = .next t ∧
          t.ctrl = .resp ∧ t.rsp = ⟨0, false, false⟩ ∧ EnumKept s t ∧ t.inputs = rest ∧
          t.responder.history = s.responder.history ++ readPair (cfgAddress bus dev fn off) v ++
            writePair (cfgAddress bus dev fn off) (merge v)

/-- The spec's own inference R234, with R118: nothing makes the two commands of a read-modify-write atomic. In RESP,
that of the read too, any command the master offers next is accepted once the response is taken, assigned or not, with
nothing changed in between. Commands issued between the two make their transactions there, and the write is of what
was merged from the dword read before them (a reset among the edges is left out: assumption 20). So a WR_DWORD in
between, to the same dword too, is followed by the write of the stale value. The master's part is assumption 20,
acceptance right after a reset is assumption 21. -/
def Obligations.NothingMakesAReadModifyWriteAtomic : Prop :=
  (∀ (t : State) (p q : Pins) (ps : List Pins), t.ctrl = .resp → t.inputs = p :: q :: ps →
    p.rst = false → p.rspReady = true → q.rst = false → q.cmdValid = true →
      (t.cmdOffer.watch p = .nothing ∨ t.cmdOffer.watch p = .waiting q.cmd) →
        ∃ r u, step t = .next r ∧ step r = runLatched u ∧ Fresh u ∧ u.ctrl = .busy ∧ u.cmd = q.cmd ∧ u.rsp = t.rsp ∧
          u.responder = t.responder ∧ EnumKept t u ∧ u.inputs = ps) ∧
    (∀ (bus dev fn off : Byte) (merge : Dword → Dword) (between : List CommandWord) (s t : State),
      s.cmdOffer = .nothing → (∀ p ∈ s.inputs, p.cmdValid = false) → noReset s.inputs →
        readModifyWrite bus dev fn off merge between s = .next t → t.ctrl = .resp →
          ∃ v mid, t.responder.history = s.responder.history ++ readPair (cfgAddress bus dev fn off) v ++ mid ++
            writePair (cfgAddress bus dev fn off) (merge v) ∧ ∀ x ∈ mid, x.completed = true) ∧
    ∀ (bus dev fn off bus' dev' fn' off' : Byte) (merge : Dword → Dword) (value : Dword) (s : State)
      (x v x' y' y z : Dword) (due : Nat) (rest : List Pins),
      s.ctrl ≠ .busy → s.cmdOffer = .nothing → (∀ p ∈ s.inputs, p.cmdValid = false) →
        served 6 s.lateDue s.inputs = some ([x, v, x', y', y, z], due, rest) →
          ∃ t, readModifyWrite bus dev fn off merge [encode (.wrDword bus' dev' fn' off' value)] s = .next t ∧
            t.ctrl = .resp ∧ t.rsp = ⟨0, false, false⟩ ∧ EnumKept s t ∧ t.inputs = rest ∧
            t.responder.history = s.responder.history ++ readPair (cfgAddress bus dev fn off) v ++
              writePair (cfgAddress bus' dev' fn' off') value ++ writePair (cfgAddress bus dev fn off) (merge v)
end

