-- ==== Sys2Proof/Laws/Codec.lean ====
section
/-!
SUPPORT. The pure functions of the codec, the BAR accessor and the enumerator, as numbers.
-/

namespace Sys2Proof.Machine

/-- The configuration-address value as its fields side by side. -/
theorem cfgAddress_eq_append (b d f o : Byte) :
    cfgAddress b d f o =
      1#1 ++ 0#7 ++ b ++ d.extractLsb' 0 5 ++ f.extractLsb' 0 3 ++ o.extractLsb' 2 6 ++ 0#2 := by
  apply BitVec.eq_of_getLsbD_eq
  intro i hi
  unfold cfgAddress
  simp only [BitVec.getLsbD_append, BitVec.getLsbD_or, BitVec.getLsbD_shiftLeft, BitVec.getLsbD_setWidth,
    BitVec.getLsbD_and, BitVec.getLsbD_extractLsb']
  interval_cases i <;> simp

/-- The configuration-address value as a sum. -/
theorem cfgAddress_toNat (b d f o : Byte) :
    (cfgAddress b d f o).toNat =
      2 ^ 31 + b.toNat * 65536 + d.toNat % 32 * 2048 + f.toNat % 8 * 256 + o.toNat / 4 * 4 := by
  rw [cfgAddress_eq_append]
  have hb := b.isLt
  have ho := o.isLt
  simp only [BitVec.toNat_append, BitVec.extractLsb'_toNat, BitVec.toNat_ofNat, Nat.shiftRight_eq_div_pow]
  rw [← Nat.shiftLeft_add_eq_or_of_lt (by omega), ← Nat.shiftLeft_add_eq_or_of_lt (by omega),
    ← Nat.shiftLeft_add_eq_or_of_lt (by omega), ← Nat.shiftLeft_add_eq_or_of_lt (by omega),
    ← Nat.shiftLeft_add_eq_or_of_lt (by omega), ← Nat.shiftLeft_add_eq_or_of_lt (by omega)]
  simp only [Nat.shiftLeft_eq]
  omega

theorem barOffset_toNat (n : Byte) : (barOffset n).toNat = (16 + 4 * n.toNat) % 256 := by
  simp [barOffset, Config.barBase, Config.barStride]

theorem atSentinel_iff (p : Position) : atSentinel p = true ↔ 256 ≤ p.bus.toNat := by
  simp [atSentinel, Config.sentinelBus, BitVec.le_def]

theorem not_atSentinel_iff (p : Position) : atSentinel p = false ↔ p.bus.toNat < 256 := by
  have := atSentinel_iff p
  cases h : atSentinel p <;> simp_all

end Sys2Proof.Machine
end

