-- ==== Sys2Proof/Laws/State.lean ====
section
/-!
SUPPORT. Every field after every update of the state, one lemma each, so that no proof unfolds an update.
-/

namespace Sys2Proof.Machine

variable (s : State)

@[simp] theorem passEdge_pos (p : Pins) : (passEdge p s).pos = s.pos := rfl
@[simp] theorem passEdge_hdr (p : Pins) : (passEdge p s).hdr = s.hdr := rfl
@[simp] theorem passEdge_ctrl (p : Pins) : (passEdge p s).ctrl = s.ctrl := rfl
@[simp] theorem passEdge_cmd (p : Pins) : (passEdge p s).cmd = s.cmd := rfl
@[simp] theorem passEdge_rsp (p : Pins) : (passEdge p s).rsp = s.rsp := rfl
@[simp] theorem passEdge_temps (p : Pins) : (passEdge p s).temps = s.temps := rfl
@[simp] theorem passEdge_io (p : Pins) : (passEdge p s).io = s.io := rfl
@[simp] theorem passEdge_responder (p : Pins) : (passEdge p s).responder = s.responder := rfl
@[simp] theorem passEdge_cmdOffer (p : Pins) : (passEdge p s).cmdOffer = s.cmdOffer.watch p := rfl
@[simp] theorem passEdge_inputs (p : Pins) : (passEdge p s).inputs = s.inputs := rfl
@[simp] theorem passEdge_tick (p : Pins) : (passEdge p s).tick = s.tick + 1 := rfl
@[simp] theorem passEdge_offeredAt (p : Pins) : (passEdge p s).offeredAt = s.offeredAt := rfl
@[simp] theorem passEdge_lateDue (p : Pins) : (passEdge p s).lateDue = lateAfter p s.lateDue := rfl

@[simp] theorem accept_pos (p : Pins) : (accept p s).pos = s.pos := rfl
@[simp] theorem accept_hdr (p : Pins) : (accept p s).hdr = s.hdr := rfl
@[simp] theorem accept_ctrl (p : Pins) : (accept p s).ctrl = .busy := rfl
@[simp] theorem accept_cmd (p : Pins) : (accept p s).cmd = latchedCommand p s := rfl
@[simp] theorem accept_rsp (p : Pins) : (accept p s).rsp = s.rsp := rfl
@[simp] theorem accept_temps (p : Pins) : (accept p s).temps = { s.temps with txnIndex := 0 } := rfl
@[simp] theorem accept_io (p : Pins) : (accept p s).io = .quiet := rfl
@[simp] theorem accept_responder (p : Pins) : (accept p s).responder = s.responder := rfl
@[simp] theorem accept_cmdOffer (p : Pins) : (accept p s).cmdOffer = .nothing := rfl
@[simp] theorem accept_inputs (p : Pins) : (accept p s).inputs = s.inputs := rfl
@[simp] theorem accept_tick (p : Pins) : (accept p s).tick = s.tick + 1 := rfl
@[simp] theorem accept_offeredAt (p : Pins) : (accept p s).offeredAt = s.offeredAt := rfl
@[simp] theorem accept_lateDue (p : Pins) : (accept p s).lateDue = lateAfter p s.lateDue := rfl

@[simp] theorem takeResponse_pos (p : Pins) : (takeResponse p s).pos = s.pos := rfl
@[simp] theorem takeResponse_hdr (p : Pins) : (takeResponse p s).hdr = s.hdr := rfl
@[simp] theorem takeResponse_ctrl (p : Pins) : (takeResponse p s).ctrl = .idle := rfl
@[simp] theorem takeResponse_cmd (p : Pins) : (takeResponse p s).cmd = s.cmd := rfl
@[simp] theorem takeResponse_rsp (p : Pins) : (takeResponse p s).rsp = s.rsp := rfl
@[simp] theorem takeResponse_temps (p : Pins) : (takeResponse p s).temps = s.temps := rfl
@[simp] theorem takeResponse_io (p : Pins) : (takeResponse p s).io = s.io := rfl
@[simp] theorem takeResponse_responder (p : Pins) : (takeResponse p s).responder = s.responder := rfl
@[simp] theorem takeResponse_cmdOffer (p : Pins) : (takeResponse p s).cmdOffer = s.cmdOffer.watch p := rfl
@[simp] theorem takeResponse_inputs (p : Pins) : (takeResponse p s).inputs = s.inputs := rfl
@[simp] theorem takeResponse_tick (p : Pins) : (takeResponse p s).tick = s.tick + 1 := rfl
@[simp] theorem takeResponse_offeredAt (p : Pins) : (takeResponse p s).offeredAt = s.offeredAt := rfl
@[simp] theorem takeResponse_lateDue (p : Pins) : (takeResponse p s).lateDue = lateAfter p s.lateDue := rfl

@[simp] theorem respond_pos (d : Dword) (f e : Bool) : (respond d f e s).pos = s.pos := rfl
@[simp] theorem respond_hdr (d : Dword) (f e : Bool) : (respond d f e s).hdr = s.hdr := rfl
@[simp] theorem respond_ctrl (d : Dword) (f e : Bool) : (respond d f e s).ctrl = .resp := rfl
@[simp] theorem respond_cmd (d : Dword) (f e : Bool) : (respond d f e s).cmd = s.cmd := rfl
@[simp] theorem respond_rsp (d : Dword) (f e : Bool) : (respond d f e s).rsp = { data := d, found := f, err := e } := rfl
@[simp] theorem respond_temps (d : Dword) (f e : Bool) : (respond d f e s).temps = s.temps := rfl
@[simp] theorem respond_io (d : Dword) (f e : Bool) : (respond d f e s).io = .quiet := rfl
@[simp] theorem respond_responder (d : Dword) (f e : Bool) : (respond d f e s).responder = s.responder := rfl
@[simp] theorem respond_cmdOffer (d : Dword) (f e : Bool) : (respond d f e s).cmdOffer = s.cmdOffer := rfl
@[simp] theorem respond_inputs (d : Dword) (f e : Bool) : (respond d f e s).inputs = s.inputs := rfl
@[simp] theorem respond_tick (d : Dword) (f e : Bool) : (respond d f e s).tick = s.tick := rfl
@[simp] theorem respond_offeredAt (d : Dword) (f e : Bool) : (respond d f e s).offeredAt = s.offeredAt := rfl
@[simp] theorem respond_lateDue (d : Dword) (f e : Bool) : (respond d f e s).lateDue = s.lateDue := rfl

@[simp] theorem takeIllegalCommand_pos : (takeIllegalCommand s).pos = s.pos := rfl
@[simp] theorem takeIllegalCommand_hdr : (takeIllegalCommand s).hdr = s.hdr := rfl
@[simp] theorem takeIllegalCommand_ctrl : (takeIllegalCommand s).ctrl = .resp := rfl
@[simp] theorem takeIllegalCommand_cmd : (takeIllegalCommand s).cmd = s.cmd := rfl
@[simp] theorem takeIllegalCommand_rsp : (takeIllegalCommand s).rsp = { data := 0, found := false, err := true } := rfl
@[simp] theorem takeIllegalCommand_temps : (takeIllegalCommand s).temps = s.temps := rfl
@[simp] theorem takeIllegalCommand_io : (takeIllegalCommand s).io = .quiet := rfl
@[simp] theorem takeIllegalCommand_responder : (takeIllegalCommand s).responder = s.responder := rfl
@[simp] theorem takeIllegalCommand_cmdOffer : (takeIllegalCommand s).cmdOffer = s.cmdOffer := rfl
@[simp] theorem takeIllegalCommand_inputs : (takeIllegalCommand s).inputs = s.inputs := rfl
@[simp] theorem takeIllegalCommand_tick : (takeIllegalCommand s).tick = s.tick := rfl
@[simp] theorem takeIllegalCommand_offeredAt : (takeIllegalCommand s).offeredAt = s.offeredAt := rfl
@[simp] theorem takeIllegalCommand_lateDue : (takeIllegalCommand s).lateDue = s.lateDue := rfl

@[simp] theorem offer_pos (req : IoReq) : (offer req s).pos = s.pos := rfl
@[simp] theorem offer_hdr (req : IoReq) : (offer req s).hdr = s.hdr := rfl
@[simp] theorem offer_ctrl (req : IoReq) : (offer req s).ctrl = s.ctrl := rfl
@[simp] theorem offer_cmd (req : IoReq) : (offer req s).cmd = s.cmd := rfl
@[simp] theorem offer_rsp (req : IoReq) : (offer req s).rsp = s.rsp := rfl
@[simp] theorem offer_temps (req : IoReq) : (offer req s).temps = s.temps := rfl
@[simp] theorem offer_io (req : IoReq) : (offer req s).io = .offered req := rfl
@[simp] theorem offer_responder (req : IoReq) : (offer req s).responder = s.responder := rfl
@[simp] theorem offer_cmdOffer (req : IoReq) : (offer req s).cmdOffer = s.cmdOffer := rfl
@[simp] theorem offer_inputs (req : IoReq) : (offer req s).inputs = s.inputs := rfl
@[simp] theorem offer_tick (req : IoReq) : (offer req s).tick = s.tick := rfl
@[simp] theorem offer_offeredAt (req : IoReq) : (offer req s).offeredAt = s.tick := rfl
@[simp] theorem offer_lateDue (req : IoReq) : (offer req s).lateDue = s.lateDue := rfl

@[simp] theorem issue_pos (req : IoReq) : (issue req s).pos = s.pos := rfl
@[simp] theorem issue_hdr (req : IoReq) : (issue req s).hdr = s.hdr := rfl
@[simp] theorem issue_ctrl (req : IoReq) : (issue req s).ctrl = s.ctrl := rfl
@[simp] theorem issue_cmd (req : IoReq) : (issue req s).cmd = s.cmd := rfl
@[simp] theorem issue_rsp (req : IoReq) : (issue req s).rsp = s.rsp := rfl
@[simp] theorem issue_temps (req : IoReq) : (issue req s).temps = s.temps := rfl
@[simp] theorem issue_io (req : IoReq) : (issue req s).io = .outstanding req := rfl
@[simp] theorem issue_responder (req : IoReq) : (issue req s).responder = s.responder := rfl
@[simp] theorem issue_cmdOffer (req : IoReq) : (issue req s).cmdOffer = s.cmdOffer := rfl
@[simp] theorem issue_inputs (req : IoReq) : (issue req s).inputs = s.inputs := rfl
@[simp] theorem issue_tick (req : IoReq) : (issue req s).tick = s.tick := rfl
@[simp] theorem issue_offeredAt (req : IoReq) : (issue req s).offeredAt = s.offeredAt := rfl
@[simp] theorem issue_lateDue (req : IoReq) : (issue req s).lateDue = s.lateDue := rfl

@[simp] theorem complete_pos (req : IoReq) (v : Dword) : (complete req v s).pos = s.pos := rfl
@[simp] theorem complete_hdr (req : IoReq) (v : Dword) : (complete req v s).hdr = s.hdr := rfl
@[simp] theorem complete_ctrl (req : IoReq) (v : Dword) : (complete req v s).ctrl = s.ctrl := rfl
@[simp] theorem complete_cmd (req : IoReq) (v : Dword) : (complete req v s).cmd = s.cmd := rfl
@[simp] theorem complete_rsp (req : IoReq) (v : Dword) : (complete req v s).rsp = s.rsp := rfl
@[simp] theorem complete_temps (req : IoReq) (v : Dword) : (complete req v s).temps = { s.temps with
      txnIndex := s.temps.txnIndex + 1,
      lastRead := req.lastRead v s.temps.lastRead } := rfl
@[simp] theorem complete_io (req : IoReq) (v : Dword) : (complete req v s).io = .quiet := rfl
@[simp] theorem complete_responder (req : IoReq) (v : Dword) : (complete req v s).responder = completedResponder req v s := rfl
@[simp] theorem complete_cmdOffer (req : IoReq) (v : Dword) : (complete req v s).cmdOffer = s.cmdOffer := rfl
@[simp] theorem complete_inputs (req : IoReq) (v : Dword) : (complete req v s).inputs = s.inputs := rfl
@[simp] theorem complete_tick (req : IoReq) (v : Dword) : (complete req v s).tick = s.tick := rfl
@[simp] theorem complete_offeredAt (req : IoReq) (v : Dword) : (complete req v s).offeredAt = s.offeredAt := rfl
@[simp] theorem complete_lateDue (req : IoReq) (v : Dword) : (complete req v s).lateDue = s.lateDue := rfl

@[simp] theorem resetEdge_pos (p : Pins) : (resetEdge p s).pos = State.reset.pos := rfl
@[simp] theorem resetEdge_hdr (p : Pins) : (resetEdge p s).hdr = State.reset.hdr := rfl
@[simp] theorem resetEdge_ctrl (p : Pins) : (resetEdge p s).ctrl = .idle := rfl
@[simp] theorem resetEdge_cmd (p : Pins) : (resetEdge p s).cmd = State.reset.cmd := rfl
@[simp] theorem resetEdge_rsp (p : Pins) : (resetEdge p s).rsp = State.reset.rsp := rfl
@[simp] theorem resetEdge_temps (p : Pins) : (resetEdge p s).temps = State.reset.temps := rfl
@[simp] theorem resetEdge_io (p : Pins) : (resetEdge p s).io = .quiet := rfl
@[simp] theorem resetEdge_responder (p : Pins) : (resetEdge p s).responder = abortIo p s := rfl
@[simp] theorem resetEdge_cmdOffer (p : Pins) : (resetEdge p s).cmdOffer = .nothing := rfl
@[simp] theorem resetEdge_inputs (p : Pins) : (resetEdge p s).inputs = s.inputs := rfl
@[simp] theorem resetEdge_tick (p : Pins) : (resetEdge p s).tick = s.tick + 1 := rfl
@[simp] theorem resetEdge_offeredAt (p : Pins) : (resetEdge p s).offeredAt = 0 := rfl
@[simp] theorem resetEdge_lateDue (p : Pins) : (resetEdge p s).lateDue = lateAfterReset p s := rfl

@[simp] theorem withOffer_pos (w : CommandWord) : (withOffer w s).pos = s.pos := rfl
@[simp] theorem withOffer_hdr (w : CommandWord) : (withOffer w s).hdr = s.hdr := rfl
@[simp] theorem withOffer_ctrl (w : CommandWord) : (withOffer w s).ctrl = .idle := rfl
@[simp] theorem withOffer_cmd (w : CommandWord) : (withOffer w s).cmd = s.cmd := rfl
@[simp] theorem withOffer_rsp (w : CommandWord) : (withOffer w s).rsp = s.rsp := rfl
@[simp] theorem withOffer_temps (w : CommandWord) : (withOffer w s).temps = s.temps := rfl
@[simp] theorem withOffer_io (w : CommandWord) : (withOffer w s).io = .quiet := rfl
@[simp] theorem withOffer_responder (w : CommandWord) : (withOffer w s).responder = s.responder := rfl
@[simp] theorem withOffer_cmdOffer (w : CommandWord) : (withOffer w s).cmdOffer = .nothing := rfl
@[simp] theorem withOffer_inputs (w : CommandWord) : (withOffer w s).inputs = offerPins w :: s.inputs := rfl
@[simp] theorem withOffer_tick (w : CommandWord) : (withOffer w s).tick = s.tick := rfl
@[simp] theorem withOffer_offeredAt (w : CommandWord) : (withOffer w s).offeredAt = s.offeredAt := rfl
@[simp] theorem withOffer_lateDue (w : CommandWord) : (withOffer w s).lateDue = s.lateDue := rfl

end Sys2Proof.Machine
end

