-- ==== Sys2Proof/Laws/Ops.lean ====
section
/-!
SUPPORT. What the shared operations can do, said once: an edge of a BUSY block, running a command over the listed
edges, and a transaction that the edges serve.
-/

namespace Sys2Proof.Machine

variable {seq : State → State}

theorem runEdges_nil (s : State) : runEdges seq [] s = { s with inputs := [] } := rfl

theorem runEdges_cons_busy {p : Pins} {ps : List Pins} {s : State} (h : s.ctrl = .busy) :
    runEdges seq (p :: ps) s = runEdges seq ps (busyEdge seq p s) := by
  simp [runEdges, h]

/-- A block that is no longer BUSY takes no more edges. -/
theorem runEdges_done {ps : List Pins} {s : State} (h : s.ctrl ≠ .busy) :
    runEdges seq ps s = { s with inputs := ps } := by
  cases ps <;> simp [runEdges, h]

theorem busyEdge_reset {p : Pins} {s : State} (h : p.rst = true) : busyEdge seq p s = resetEdge p s := by
  simp [busyEdge, h]

/-- What one edge of a BUSY block can do. -/
theorem busyEdge_cases (p : Pins) (s : State) :
    (p.rst = true ∧ busyEdge seq p s = resetEdge p s) ∨
    (p.rst = false ∧ busyEdge seq p s = passEdge p s ∧
      (s.io = .quiet ∨ (∃ req, s.io = .offered req ∧ p.ioReqReady = false) ∨
        ∃ req, s.io = .outstanding req ∧ ownCompletion p s.lateDue = false)) ∨
    (∃ req, p.rst = false ∧ s.io = .offered req ∧ p.ioReqReady = true ∧
      busyEdge seq p s = issue req (passEdge p s)) ∨
    (∃ req, p.rst = false ∧ s.io = .outstanding req ∧ ownCompletion p s.lateDue = true ∧
      busyEdge seq p s = seq (complete req p.ioRspRdata (passEdge p s))) := by
  unfold busyEdge
  cases p.rst with
  | true => exact .inl ⟨rfl, by simp⟩
  | false =>
    rcases hio : s.io with _ | req | req
    · exact .inr (.inl ⟨rfl, by simp, .inl rfl⟩)
    · cases hr : p.ioReqReady with
      | false => exact .inr (.inl ⟨rfl, by simp, .inr (.inl ⟨req, rfl, rfl⟩)⟩)
      | true => exact .inr (.inr (.inl ⟨req, rfl, rfl, rfl, by simp⟩))
    · cases hr : ownCompletion p s.lateDue with
      | false => exact .inr (.inl ⟨rfl, by simp, .inr (.inr ⟨req, rfl, rfl⟩)⟩)
      | true => exact .inr (.inr (.inr ⟨req, rfl, rfl, rfl, by simp⟩))

/-- A property that the last change of `inputs` keeps and that every edge of a BUSY block keeps holds after the run. -/
theorem runEdges_induction {P : State → Prop} (hin : ∀ s ps, P s → P { s with inputs := ps })
    (hedge : ∀ p s, s.ctrl = .busy → P s → P (busyEdge seq p s)) :
    ∀ (ps : List Pins) (s : State), P s → P (runEdges seq ps s)
  | [], s, h => hin s [] h
  | p :: ps, s, h => by
    unfold runEdges
    split
    · exact runEdges_induction hin hedge ps _ (hedge p s ‹_› h)
    · exact hin s _ h

/-- The same, over edges none of which is a reset. -/
theorem runEdges_induction_noReset {P : State → Prop} (hin : ∀ s ps, P s → P { s with inputs := ps })
    (hedge : ∀ p s, p.rst = false → s.ctrl = .busy → P s → P (busyEdge seq p s)) :
    ∀ (ps : List Pins) (s : State), noReset ps → P s → P (runEdges seq ps s)
  | [], s, _, h => hin s [] h
  | p :: ps, s, hr, h => by
    unfold runEdges
    split
    · exact runEdges_induction_noReset hin hedge ps _ (fun q hq => hr q (by simp [hq]))
        (hedge p s (hr p (by simp)) ‹_› h)
    · exact hin s _ h

/-- The state when a request issued in `s` has just completed with the answer `v`, up to the environment's bookkeeping:
`cmdOffer` and `tick` count the edges the wait took. -/
structure AfterTransaction (s : State) (req : IoReq) (v : Dword) (due : Nat) (t : State) : Prop where
  pos : t.pos = s.pos
  hdr : t.hdr = s.hdr
  ctrl : t.ctrl = .busy
  cmd : t.cmd = s.cmd
  rsp : t.rsp = s.rsp
  io : t.io = .quiet
  lateDue : t.lateDue = due
  temps : t.temps = { s.temps with
    txnIndex := s.temps.txnIndex + 1,
    lastRead := req.lastRead v s.temps.lastRead }
  history : t.responder.history = s.responder.history ++
    [txnOf req s.responder.latch (req.ending v)]
  latch : ∀ a, req = .write Config.addrPort a → t.responder.latch = a

/-- A request under way that the listed edges serve completes, and the sequencer goes on from there. -/
theorem runEdges_served {req : IoReq} {v : Dword} {due : Nat} {rest : List Pins} :
    ∀ (ps : List Pins) (issued : Bool) (s : State), s.ctrl = .busy →
      s.io = (if issued then .outstanding req else .offered req) →
      servedOne issued s.lateDue ps = some (v, due, rest) →
      ∃ t, AfterTransaction s req v due t ∧ runEdges seq ps s = runEdges seq rest (seq t)
  | [], _, _, _, _, h => by simp [servedOne] at h
  | p :: ps, issued, s, hc, hio, h => by
    rw [runEdges_cons_busy hc]
    cases hr : p.rst with
    | true => simp [servedOne, hr] at h
    | false =>
      have keep : ∀ (s' : State) (b : Bool), s'.pos = s.pos → s'.hdr = s.hdr → s'.ctrl = .busy → s'.cmd = s.cmd →
          s'.rsp = s.rsp → s'.temps = s.temps → s'.responder = s.responder →
          s'.io = (if b then .outstanding req else .offered req) → s'.lateDue = lateAfter p s.lateDue →
          servedOne b (lateAfter p s.lateDue) ps = some (v, due, rest) →
          ∃ t, AfterTransaction s req v due t ∧ runEdges seq ps s' = runEdges seq rest (seq t) := by
        intro s' b h1 h2 h3 h4 h5 h6 h7 h8 hl h9
        obtain ⟨t, ht, he⟩ := runEdges_served ps b s' h3 h8 (hl ▸ h9)
        refine ⟨t, ?_, he⟩
        obtain ⟨q1, q2, q3, q4, q5, q6, q7, q8, q9, q10⟩ := ht
        constructor <;> simp_all
      cases issued with
      | false =>
        simp only [Bool.false_eq_true, if_false] at hio
        simp only [servedOne, hr, Bool.false_eq_true, if_false] at h
        cases hq : p.ioReqReady with
        | false =>
          rw [hq] at h
          have : busyEdge seq p s = passEdge p s := by simp [busyEdge, hr, hio, hq]
          rw [this]
          exact keep _ false rfl rfl hc rfl rfl rfl rfl (by simpa using hio) rfl h
        | true =>
          rw [hq] at h
          have : busyEdge seq p s = issue req (passEdge p s) := by simp [busyEdge, hr, hio, hq]
          rw [this]
          exact keep _ true rfl rfl hc rfl rfl rfl rfl (by simp) rfl h
      | true =>
        simp only [if_true] at hio
        simp only [servedOne, hr, Bool.false_eq_true, if_false, if_true] at h
        cases hq : ownCompletion p s.lateDue with
        | false =>
          simp only [hq, Bool.false_eq_true, if_false] at h
          have : busyEdge seq p s = passEdge p s := by simp [busyEdge, hr, hio, hq]
          rw [this]
          exact keep _ true rfl rfl hc rfl rfl rfl rfl (by simpa using hio) rfl h
        | true =>
          simp only [hq, if_true, Option.some.injEq, Prod.mk.injEq] at h
          obtain ⟨rfl, rfl, rfl⟩ := h
          have : busyEdge seq p s = seq (complete req p.ioRspRdata (passEdge p s)) := by
            simp [busyEdge, hr, hio, hq]
          rw [this]
          refine ⟨_, ?_, rfl⟩
          constructor <;> try simp [hc, completedResponder]
          intro a ha
          subst ha
          simp [Responder.takeWrite, txnOf, IoReq.port, Config.addrPort, Config.dataPort]

theorem runCommand_quiet {s : State} (h : s.io = .quiet) :
    runCommand seq s = .next (runEdges seq s.inputs (seq { s with ctrl := .busy })) := by
  simp [runCommand, start, h]

theorem runCommand_active {s : State} (h : ioActive s.io = true) :
    runCommand seq s = .next (runEdges seq s.inputs { s with ctrl := .busy }) := by
  unfold runCommand start
  cases hio : s.io <;> simp_all [ioActive]

end Sys2Proof.Machine
end

