-- ==== Sys2Proof/Laws/PerInstr.lean ====
section
/-!
SUPPORT. What holds of each command as syntax, one lemma per constructor.
-/

namespace Sys2Proof.Laws.CommandFields

open Sys2Proof.Machine

/-- A command's fields carry the opcode of its mnemonic (R84), and its assembly line is well formed and has that
mnemonic (R88). -/
def Statement (i : Instr) : Prop :=
  i.command.op = i.mnemonic.opcode ∧ (disassemble i).wellFormed = true ∧ (disassemble i).mnemonic = i.mnemonic

/-- The four byte operands of a line fit their fields. -/
theorem four_fit (m : Mnemonic) (hm : m.bounds = [0xFF, 0xFF, 0xFF, 0xFF]) (b d f o : Byte) :
    (AsmLine.mk m [b.toNat, d.toNat, f.toNat, o.toNat]).wellFormed = true := by
  have := b.isLt
  have := d.isLt
  have := f.isLt
  have := o.isLt
  simp [AsmLine.wellFormed, AsmLine.countOk, AsmLine.operandsFit, hm]
  omega

/-- The five operands of a line with a value fit their fields. -/
theorem five_fit (m : Mnemonic) (hm : m.bounds = [0xFF, 0xFF, 0xFF, 0xFF, 0xFFFFFFFF]) (b d f o : Byte) (v : Dword) :
    (AsmLine.mk m [b.toNat, d.toNat, f.toNat, o.toNat, v.toNat]).wellFormed = true := by
  have := b.isLt
  have := d.isLt
  have := f.isLt
  have := o.isLt
  have := v.isLt
  simp [AsmLine.wellFormed, AsmLine.countOk, AsmLine.operandsFit, hm]
  omega

theorem encodeAddr (b d f o : Byte) : Statement (.encodeAddr b d f o) := ⟨rfl, four_fit _ rfl b d f o, rfl⟩
theorem rdDword (b d f o : Byte) : Statement (.rdDword b d f o) := ⟨rfl, four_fit _ rfl b d f o, rfl⟩
theorem wrDword (b d f o : Byte) (v : Dword) : Statement (.wrDword b d f o v) := ⟨rfl, five_fit _ rfl b d f o v, rfl⟩
theorem rdWord (b d f o : Byte) : Statement (.rdWord b d f o) := ⟨rfl, four_fit _ rfl b d f o, rfl⟩
theorem rdByte (b d f o : Byte) : Statement (.rdByte b d f o) := ⟨rfl, four_fit _ rfl b d f o, rfl⟩
theorem enumInit : Statement .enumInit := ⟨rfl, rfl, rfl⟩
theorem enumNext : Statement .enumNext := ⟨rfl, rfl, rfl⟩
theorem rdBar (b d f n : Byte) : Statement (.rdBar b d f n) := ⟨rfl, four_fit _ rfl b d f n, rfl⟩
theorem wrBar (b d f n : Byte) (v : Dword) : Statement (.wrBar b d f n v) := ⟨rfl, five_fit _ rfl b d f n v, rfl⟩

end Sys2Proof.Laws.CommandFields
end

