-- ==== Sys2Proof/Laws/Sequencer.lean ====
section
/-!
SUPPORT. Every command as `runCommand` of one sequencer, and what a sequencer can do, said once for all of them.
-/

namespace Sys2Proof.Machine

/-- The sequencer each meaning runs. -/
def sequencerOf : Instr → State → State
  | .encodeAddr b d f o => respond (cfgAddress b d f o) false false
  | .rdDword b d f o => cfgReadDword b d f o fun v => respond v false false
  | .wrDword b d f o v => cfgWriteDword b d f o v (respond 0 false false)
  | .rdWord b d f o => cfgReadDword b d f o fun v => respond (wordOf v o) false false
  | .rdByte b d f o => cfgReadDword b d f o fun v => respond (byteOf v o) false false
  | .enumInit => fun s => respond 0 false false
      { s with
        pos := { bus := Config.sentinelBus, dev := 0, fn := 0 },
        hdr := { s.hdr with vendor := Config.sentinelVendor } }
  | .enumNext => enumNextSeq
  | .rdBar b d f n => cfgReadDword b d f (barOffset n) fun v => respond v false false
  | .wrBar b d f n v => cfgWriteDword b d f (barOffset n) v (respond 0 false false)

theorem exec_eq_runCommand (i : Instr) (s : State) : exec i s = runCommand (sequencerOf i) s := by
  cases i <;> rfl

/-- A command always answers a next state. -/
theorem exec_next (i : Instr) (s : State) :
    exec i s = .next (runEdges (sequencerOf i) s.inputs (start (sequencerOf i) s)) :=
  exec_eq_runCommand i s

/-- What a dword read's sequencer can do: offer the next of its two requests, or respond. -/
theorem cfgReadDword_cases (b d f o : Byte) (k : Dword → State → State) (s : State) :
    (s.temps.txnIndex = 0 ∧ cfgReadDword b d f o k s = offer (addrWrite b d f o) s) ∨
    (s.temps.txnIndex = 1 ∧ cfgReadDword b d f o k s = offer dataRead s) ∨
    (2 ≤ s.temps.txnIndex ∧ cfgReadDword b d f o k s = k s.temps.lastRead s) := by
  unfold cfgReadDword
  rcases s.temps.txnIndex with _ | _ | n
  · exact .inl ⟨rfl, rfl⟩
  · exact .inr (.inl ⟨rfl, rfl⟩)
  · exact .inr (.inr ⟨by omega, rfl⟩)

/-- What a dword write's sequencer can do. -/
theorem cfgWriteDword_cases (b d f o : Byte) (v : Dword) (k : State → State) (s : State) :
    (s.temps.txnIndex = 0 ∧ cfgWriteDword b d f o v k s = offer (addrWrite b d f o) s) ∨
    (s.temps.txnIndex = 1 ∧ cfgWriteDword b d f o v k s = offer (dataWrite v) s) ∨
    (2 ≤ s.temps.txnIndex ∧ cfgWriteDword b d f o v k s = k s) := by
  unfold cfgWriteDword
  rcases s.temps.txnIndex with _ | _ | n
  · exact .inl ⟨rfl, rfl⟩
  · exact .inr (.inl ⟨rfl, rfl⟩)
  · exact .inr (.inr ⟨by omega, rfl⟩)

/-- What one round of the enumerator's loop can do. -/
theorem enumRound_cases (s : State) :
    (atSentinel (advance (multifunction s.hdr) s.pos) = true ∧
      enumRound s = respond 0 false false { s with
        pos := advance (multifunction s.hdr) s.pos,
        hdr := { s.hdr with vendor := Config.sentinelVendor },
        temps := { s.temps with txnIndex := 0 } }) ∨
    (atSentinel (advance (multifunction s.hdr) s.pos) = false ∧
      enumRound s = offer (probeWrite (advance (multifunction s.hdr) s.pos) Config.headerOffset0) { s with
        pos := advance (multifunction s.hdr) s.pos,
        temps := { s.temps with txnIndex := 0 } }) := by
  unfold enumRound
  cases h : atSentinel (advance (multifunction s.hdr) s.pos) with
  | true => exact .inl ⟨rfl, by simp [h]⟩
  | false => exact .inr ⟨rfl, by simp [h]⟩

end Sys2Proof.Machine
end

