-- ==== Sys2Proof/Laws/Run.lean ====
section
/-!
SUPPORT. Whole commands and whole steps: what each can do, said once for the statements about them.
-/

namespace Sys2Proof.Machine

/-- The listed edges that serve `n + 1` transactions serve the first one and then the other `n`. -/
theorem served_succ {n due due' : Nat} {ps rest : List Pins} {v : Dword} {vs : List Dword}
    (h : served (n + 1) due ps = some (v :: vs, due', rest)) :
    ∃ d qs, servedOne false due ps = some (v, d, qs) ∧ served n d qs = some (vs, due', rest) := by
  unfold served at h
  split at h
  · cases h
  · next y d qs hy =>
    split at h
    · cases h
    · next ws d' r hr =>
      simp at h
      obtain ⟨⟨rfl, rfl⟩, rfl, rfl⟩ := h
      exact ⟨d, qs, hy, hr⟩

/-- A command whose sequencer makes the two requests `r1` and `r2` first, on edges that serve two transactions. -/
theorem runCommand_two {seq : State → State} {s : State} {r1 r2 : IoReq} {x v : Dword} {due : Nat} {rest : List Pins}
    (hs : Fresh s) (h : served 2 s.lateDue s.inputs = some ([x, v], due, rest))
    (h0 : ∀ t : State, t.temps.txnIndex = 0 → seq t = offer r1 t)
    (h1 : ∀ t : State, t.temps.txnIndex = 1 → seq t = offer r2 t) :
    ∃ d1 t1 t2, AfterTransaction (offer r1 { s with ctrl := .busy }) r1 x d1 t1 ∧
      AfterTransaction (offer r2 t1) r2 v due t2 ∧ runCommand seq s = .next (runEdges seq rest (seq t2)) := by
  obtain ⟨d1, qs, hx, hv⟩ := served_succ h
  obtain ⟨d2, qs', hw, hq⟩ := served_succ hv
  simp only [served, Option.some.injEq, Prod.mk.injEq] at hq
  obtain ⟨-, rfl, rfl⟩ := hq
  rw [runCommand_quiet hs.1, h0 _ (by simpa using hs.2)]
  obtain ⟨t1, ht1, e1⟩ := runEdges_served (seq := seq) (req := r1) s.inputs false
    (offer r1 { s with ctrl := .busy }) rfl (by simp) hx
  have i1 : t1.temps.txnIndex = 1 := by rw [ht1.temps]; simp [hs.2]
  rw [h1 _ i1] at e1
  obtain ⟨t2, ht2, e2⟩ := runEdges_served (seq := seq) (req := r2) qs false (offer r2 t1) ht1.ctrl (by simp)
    (by simpa [ht1.lateDue] using hw)
  exact ⟨d1, t1, t2, ht1, ht2, by rw [e1, e2]⟩

/-- No sequencer reads or writes the listed edges. -/
theorem sequencerOf_inputs (i : Instr) (s : State) (ps : List Pins) :
    sequencerOf i { s with inputs := ps } = { sequencerOf i s with inputs := ps } := by
  cases i
  case enumNext =>
    simp only [sequencerOf, enumNextSeq]
    rcases s.temps.txnIndex with _ | _ | _ | _ | _ | _ | n <;> simp only [offer]
    · unfold enumRound
      simp only
      split <;> rfl
    · unfold probeDone
      simp only
      split
      · rfl
      · unfold enumRound
        simp only
        split <;> rfl
  all_goals simp only [sequencerOf, cfgReadDword, cfgWriteDword]
  all_goals first | rfl | (rcases s.temps.txnIndex with _ | _ | n <;> rfl)

theorem busyEdge_inputs (i : Instr) (p : Pins) (s : State) (ps : List Pins) :
    busyEdge (sequencerOf i) p { s with inputs := ps } = { busyEdge (sequencerOf i) p s with inputs := ps } := by
  unfold busyEdge
  simp only
  split
  · rfl
  · split
    · split <;> rfl
    · split
      · exact sequencerOf_inputs i (complete _ p.ioRspRdata (passEdge p s)) ps
      · rfl
    · rfl

/-- A run depends on the edges given to it, not on the edges its state lists. -/
theorem runEdges_inputs (i : Instr) : ∀ (ps : List Pins) (s : State) (qs : List Pins),
    runEdges (sequencerOf i) ps { s with inputs := qs } = runEdges (sequencerOf i) ps s
  | [], _, _ => rfl
  | p :: ps, s, qs => by
    simp only [runEdges]
    split
    · rw [busyEdge_inputs, runEdges_inputs i ps]
    · rfl

/-- A run that is still BUSY after some edges goes on from there over the edges that follow. -/
theorem runEdges_append (i : Instr) : ∀ (before after : List Pins) (s : State),
    (runEdges (sequencerOf i) before s).ctrl = .busy →
      runEdges (sequencerOf i) (before ++ after) s =
        runEdges (sequencerOf i) after (runEdges (sequencerOf i) before s)
  | [], after, s, _ => (runEdges_inputs i after s []).symm
  | p :: ps, after, s, h => by
    unfold runEdges at h
    split at h
    · next hb =>
      rw [List.cons_append, runEdges_cons_busy hb, runEdges_cons_busy hb]
      exact runEdges_append i ps after _ h
    · next hb => exact absurd h hb

/-- A property that each kind of edge keeps, and that a command's own move keeps, holds after the command. -/
theorem exec_keeps {P : State → Prop} (i : Instr) (hin : ∀ s ps, P s → P { s with inputs := ps })
    (hreset : ∀ p s, P s → P (resetEdge p s)) (hpass : ∀ p s, P s → P (passEdge p s))
    (hissue : ∀ p s req, s.io = .offered req → P s → P (issue req (passEdge p s)))
    (hcomplete : ∀ p s req v, s.ctrl = .busy → s.io = .outstanding req → P s →
      P (sequencerOf i (complete req v (passEdge p s))))
    (hstart : ∀ s, P s → P (start (sequencerOf i) s)) {s t : State} (h : P s) (he : exec i s = .next t) : P t := by
  rw [exec_next] at he
  simp only [Host.Outcome.next.injEq] at he
  subst he
  refine runEdges_induction hin (fun p s hb h => ?_) _ _ (hstart s h)
  rcases busyEdge_cases (seq := sequencerOf i) p s with
    ⟨_, e⟩ | ⟨_, e, _⟩ | ⟨req, _, ho, _, e⟩ | ⟨req, _, ho, _, e⟩ <;> rw [e]
  · exact hreset p s h
  · exact hpass p s h
  · exact hissue p s req ho h
  · exact hcomplete p s req _ hb ho h

/-- What the latched command of a BUSY block can do: run, or be illegal. -/
theorem runLatched_cases (s : State) :
    (∃ i, s.cmd.decode = .ok i ∧ runLatched s = exec i s) ∨
    (∃ e, s.cmd.decode = .error e ∧ runLatched s = .next (takeIllegalCommand s)) := by
  unfold runLatched
  cases h : s.cmd.decode with
  | ok i => exact .inl ⟨i, rfl, rfl⟩
  | error e => exact .inr ⟨e, rfl, rfl⟩

/-- What one step can do. -/
theorem step_cases (s : State) :
    (s.ctrl = .busy ∧ step s = runLatched s) ∨
    (s.ctrl ≠ .busy ∧ s.inputs = [] ∧ step s = .next s) ∨
    (∃ p ps, s.ctrl ≠ .busy ∧ s.inputs = p :: ps ∧ p.rst = true ∧
      step s = .next (resetEdge p { s with inputs := ps })) ∨
    (∃ p ps, s.ctrl = .idle ∧ s.inputs = p :: ps ∧ p.rst = false ∧ p.cmdValid = true ∧
      step s = runLatched (accept p { s with inputs := ps })) ∨
    (∃ p ps, s.ctrl ≠ .busy ∧ s.inputs = p :: ps ∧ p.rst = false ∧ (s.ctrl = .idle → p.cmdValid = false) ∧
      (s.ctrl = .resp → p.rspReady = false) ∧ step s = .next (passEdge p { s with inputs := ps })) ∨
    (∃ p ps, s.ctrl = .resp ∧ s.inputs = p :: ps ∧ p.rst = false ∧ p.rspReady = true ∧
      step s = .next (takeResponse p { s with inputs := ps })) := by
  unfold step
  cases hc : s.ctrl with
  | busy => exact .inl ⟨rfl, rfl⟩
  | idle =>
    cases hi : s.inputs with
    | nil => exact .inr (.inl ⟨by simp, rfl, rfl⟩)
    | cons p ps =>
      cases hr : p.rst with
      | true => exact .inr (.inr (.inl ⟨p, ps, by simp, rfl, hr, by simp [idleEdge, hr]⟩))
      | false =>
        cases hv : p.cmdValid with
        | true => exact .inr (.inr (.inr (.inl ⟨p, ps, rfl, rfl, hr, hv, by simp [idleEdge, hr, hv]⟩)))
        | false =>
          exact .inr (.inr (.inr (.inr (.inl ⟨p, ps, by simp, rfl, hr, fun _ => hv, by simp,
            by simp [idleEdge, hr, hv]⟩))))
  | resp =>
    cases hi : s.inputs with
    | nil => exact .inr (.inl ⟨by simp, rfl, rfl⟩)
    | cons p ps =>
      cases hr : p.rst with
      | true => exact .inr (.inr (.inl ⟨p, ps, by simp, rfl, hr, by simp [respEdge, hr]⟩))
      | false =>
        cases hv : p.rspReady with
        | true =>
          exact .inr (.inr (.inr (.inr (.inr ⟨p, ps, rfl, rfl, hr, hv, by simp [respEdge, hr, hv]⟩))))
        | false =>
          exact .inr (.inr (.inr (.inr (.inl ⟨p, ps, by simp, rfl, hr, by simp, fun _ => hv,
            by simp [respEdge, hr, hv]⟩))))

/-! ### What the command master issues -/

@[simp] theorem andThen_next (t : State) (k : State → Host.Outcome State Fault Refusal) : andThen (.next t) k = k t := rfl

@[simp] theorem issueCommand_busy {w : CommandWord} {s : State} (h : s.ctrl = .busy) : issueCommand w s = .next s := by
  simp [issueCommand, h]

/-- A block that is still BUSY takes none of the commands issued next. -/
theorem issueCommands_busy : ∀ (ws : List CommandWord) {s : State}, s.ctrl = .busy → issueCommands ws s = .next s
  | [], _, _ => rfl
  | w :: ws, s, h => by simp [issueCommands, h, issueCommands_busy ws h]

/-- What issuing a command can do: wait for a BUSY block, or run the command from where the block accepts it. -/
theorem issueCommand_cases (w : CommandWord) (s : State) (hn : s.cmdOffer = .nothing) :
    (s.ctrl = .busy ∧ issueCommand w s = .next s) ∨
    (s.ctrl ≠ .busy ∧ ∃ u, issueCommand w s = runLatched u ∧ Fresh u ∧ u.ctrl = .busy ∧ u.cmd = Command.ofWord w ∧
      u.rsp = s.rsp ∧ u.responder = s.responder ∧ EnumKept s u ∧ u.cmdOffer = .nothing ∧ u.inputs = s.inputs ∧
      u.lateDue = s.lateDue) := by
  cases hc : s.ctrl with
  | busy => exact .inl ⟨rfl, issueCommand_busy hc⟩
  | idle =>
    refine .inr ⟨by simp, accept (offerPins w) s, ?_, ?_⟩
    · simp [issueCommand, hc, step, idleEdge, offerPins, quietPins, accept, latchedCommand]
    · refine ⟨⟨rfl, rfl⟩, rfl, ?_, rfl, rfl, ⟨rfl, rfl⟩, rfl, rfl, rfl⟩
      simp [accept, latchedCommand, hn, CmdOffer.watch, offerPins]
  | resp =>
    refine .inr ⟨by simp, accept (offerPins w) (takeResponse takePins s), ?_, ?_⟩
    · simp [issueCommand, hc, step, respEdge, idleEdge, takePins, offerPins, quietPins, accept, takeResponse, passEdge,
        latchedCommand]
    · refine ⟨⟨rfl, rfl⟩, rfl, ?_, rfl, rfl, ⟨rfl, rfl⟩, rfl, rfl, rfl⟩
      simp [accept, latchedCommand, hn, CmdOffer.watch, offerPins, takeResponse, passEdge, takePins, quietPins]

end Sys2Proof.Machine
end

