-- ==== Sys2Proof/Tests/Slice0.lean ====
section
/-!
SUPPORT. The model's own tests: well-formedness, decoding of written-out words, the assembler, each command once or
twice on a small state, resets, and a witness for every statement that has hypotheses. Expected values are those of
spec/95_test_vectors.md, or computed by hand from the rule named.
-/

namespace Sys2Proof.Tests

open Sys2Proof.Machine

/-! ### Helpers -/

/-- The pins of an edge that accepts the offered request. -/
def readyEdge : Pins := { quietPins with ioReqReady := true }

/-- The pins of an edge that completes the issued request. -/
def doneEdge (v : Dword) : Pins := { quietPins with ioRspValid := true, ioRspRdata := v }

/-- The pins of an edge that brings the completion of an aborted transaction. -/
def lateEdge (v : Dword) : Pins := { doneEdge v with ioRspLate := true }

/-- The pins of a reset edge. -/
def resetPins : Pins := { quietPins with rst := true }

/-- The edges that serve one transaction for each answer, without a wait. -/
def prompt : List Dword → List Pins
  | [] => []
  | v :: vs => readyEdge :: doneEdge v :: prompt vs

/-- A command just accepted, with the registers of reset and these edges to come. -/
def fresh (ps : List Pins) : State := { State.reset with ctrl := .busy, inputs := ps }

/-- The same, at a position. -/
def freshAt (p : Position) (ps : List Pins) : State := { fresh ps with pos := p }

/-- An idle block that is offered this command word, with edges to come after it. -/
def idle (w : CommandWord) (ps : List Pins) : State := { State.reset with inputs := offerPins w :: ps }

/-- The next state of an outcome. -/
def nextOf : Host.Outcome State Fault Refusal → Option State
  | .next s => some s
  | _ => none

/-- The requests of a state's history. -/
def reqs (s : State) : List IoReq := s.responder.history.map (·.req)

/-! ### Well-formed lines (R88) -/

theorem test_wellFormed_accepts : (AsmLine.mk .WR_BAR [255, 255, 255, 255, 0xFFFFFFFF]).wellFormed = true := by decide

theorem test_wellFormed_refuses_too_few_operands : (AsmLine.mk .RD_DWORD [0, 0, 0]).countOk = false := by decide

theorem test_wellFormed_refuses_too_many_operands : (AsmLine.mk .ENUM_NEXT [0]).wellFormed = false := by decide

theorem test_wellFormed_refuses_wide_byte : (AsmLine.mk .ENCODE [0, 0, 256, 0]).operandsFit = false := by decide

theorem test_wellFormed_refuses_wide_value :
    (AsmLine.mk .WR_DWORD [0, 0, 0, 0, 0x100000000]).wellFormed = false := by decide

/-! ### Decoding of words written out from R83 and R84 -/

theorem test_decode_encode : decode 0x1_01_02_03_10_00000000 = .ok (.encodeAddr 1 2 3 0x10) := by rfl

theorem test_decode_rd_dword : decode 0x2_00_20_08_04_DEADBEEF = .ok (.rdDword 0 0x20 8 4) := by rfl

theorem test_decode_wr_dword : decode 0x3_00_03_00_13_12345678 = .ok (.wrDword 0 3 0 0x13 0x12345678) := by rfl

theorem test_decode_rd_word : decode 0x4_00_00_00_06_00000000 = .ok (.rdWord 0 0 0 6) := by rfl

theorem test_decode_rd_byte : decode 0x5_00_01_00_FF_00000000 = .ok (.rdByte 0 1 0 0xFF) := by rfl

theorem test_decode_enum_init : decode 0x6_12_34_56_78_9ABCDEF0 = .ok .enumInit := by rfl

theorem test_decode_enum_next : decode 0x7_00_00_00_00_00000000 = .ok .enumNext := by rfl

theorem test_decode_rd_bar : decode 0x8_00_00_00_3B_00000000 = .ok (.rdBar 0 0 0 59) := by rfl

theorem test_decode_wr_bar : decode 0x9_02_23_0A_01_E0000000 = .ok (.wrBar 2 0x23 0x0A 1 0xE0000000) := by rfl

theorem test_decode_rejects_0 : decode 0x0_00_00_00_00_00000000 = .error (.unassignedOpcode 0) := by rfl

theorem test_decode_rejects_A : decode 0xA_01_02_03_04_05060708 = .error (.unassignedOpcode 0xA) := by rfl

theorem test_decode_rejects_F : decode 0xF_FF_FF_FF_FF_FFFFFFFF = .error (.unassignedOpcode 0xF) := by rfl

theorem test_decodeTableWord : decodeTableWord 72 0x9_02_23_0A_01_E0000000 = some (.wrBar 2 0x23 0x0A 1 0xE0000000) ∧
    decodeTableWord 72 0xA_00_00_00_00_00000000 = none ∧ decodeTableWord 72 0x01_1_00_00_00_00_00000000 = none := by
  decide

theorem test_encode_writes_zeros : encode .enumInit = 0x6_00_00_00_00_00000000 ∧
    encode (.wrBar 2 0x23 0x0A 1 0xE0000000) = 0x9_02_23_0A_01_E0000000 := by decide

/-! ### The assembler (R88) -/

theorem test_assembleLine_command :
    assembleLine "loop:  RD_BYTE 0, 1,0, 0xFF ; last".toList = some (some 0x5_00_01_00_FF_00000000) := by decide

theorem test_assembleLine_refuses :
    assembleLine "; none".toList = some none ∧ assembleLine "ENCODE 0, 0, 0, 256".toList = none ∧
      assembleLine "WR_WORD 0, 0, 0, 0, 0".toList = none := by decide

/-! ### The codec: CD-2, CD-4, CD-9 -/

theorem test_encode_vectors :
    cfgAddress 1 2 3 0x10 = 0x80011310 ∧ cfgAddress 0xFF 0xFF 0xFF 0xFF = 0x80FFFFFC ∧
      cfgAddress 0xAB 0xCD 0xEF 0x12 = 0x80AB6F10 ∧ cfgAddress 0x12 5 1 0x3E = 0x8012293C := by decide

theorem test_step_encode :
    (nextOf (step (idle 0x1_FF_00_00_00_DEADBEEF []))).map (fun t => (t.ctrl, t.rsp, t.io, reqs t)) =
      some (.resp, ⟨0x80FF0000, false, false⟩, .quiet, []) := by decide

/-! ### The accessors: AC-3, AC-17, AC-7, AC-12, BR-9, BR-14 -/

theorem test_rd_dword :
    (nextOf (exec (.rdDword 0 0x20 8 4) (fresh (prompt [0, 0x02900006])))).map (fun t => (t.ctrl, t.rsp, reqs t)) =
      some (.resp, ⟨0x02900006, false, false⟩, [.write 0xCF8 0x80000004, .read 0xCFC]) := by decide

/-- HS-3: the completion of the read never comes. -/
theorem test_rd_dword_hangs :
    (nextOf (exec (.rdDword 0 0 0 0) (fresh (prompt [0] ++ [readyEdge])))).map (fun t => (t.ctrl, t.io)) =
      some (.busy, .outstanding (.read 0xCFC)) := by decide

theorem test_wr_dword :
    (nextOf (exec (.wrDword 0 3 0 0x13 0x12345678) (fresh (prompt [1, 2])))).map
        (fun t => (t.ctrl, t.rsp, t.responder.history)) =
      some (.resp, ⟨0, false, false⟩,
        [⟨.write 0xCF8 0x80001810, none, .wrote⟩, ⟨.write 0xCFC 0x12345678, some 0x80001810, .wrote⟩]) := by decide

/-- RS-3 and RS-4: a reset while the data write is issued leaves the registers at their reset values. -/
theorem test_wr_dword_reset :
    (nextOf (exec (.wrDword 0 3 0 0x10 5) (fresh (prompt [0] ++ [readyEdge, resetPins, doneEdge 0])))).map
        (fun t => (t.ctrl, t.io, t.pos, reqs t, t.inputs.length)) =
      some (.idle, .quiet, ⟨256, 0, 0⟩, [.write 0xCF8 0x80001810, .write 0xCFC 5], 1) := by decide

theorem test_rd_word :
    (nextOf (exec (.rdWord 0 0 0 3) (fresh (prompt [0, 0x24CD8086])))).map (·.rsp.data) = some 0x24CD ∧
      (nextOf (exec (.rdWord 0 0 0 1) (fresh (prompt [0, 0x24CD8086])))).map (·.rsp.data) = some 0x8086 := by decide

theorem test_rd_byte :
    (nextOf (exec (.rdByte 0 0 0 1) (fresh (prompt [0, 0x24CD8086])))).map (·.rsp.data) = some 0x80 ∧
      (nextOf (exec (.rdByte 0 0 0 3) (fresh (prompt [0, 0x24CD8086])))).map (·.rsp.data) = some 0x24 := by decide

theorem test_rd_bar :
    (nextOf (exec (.rdBar 0 0 0 60) (fresh (prompt [0, 0x24CD8086])))).map (fun t => (t.rsp.data, reqs t)) =
      some (0x24CD8086, [.write 0xCF8 0x80000000, .read 0xCFC]) := by decide

theorem test_wr_bar :
    (nextOf (exec (.wrBar 2 0x23 0x0A 1 0xE0000000) (fresh (prompt [0, 0])))).map (fun t => (t.rsp, reqs t)) =
      some (⟨0, false, false⟩, [.write 0xCF8 0x80021A14, .write 0xCFC 0xE0000000]) := by decide

theorem test_barOffset : barOffset 5 = 0x24 ∧ barOffset 59 = 0xFC ∧ barOffset 60 = 0 ∧ barOffset 255 = 0x0C := by decide

/-! ### The enumerator: EN-0, EN-13, EN-9 -/

theorem test_enum_init :
    (nextOf (exec .enumInit { fresh [] with pos := ⟨0, 3, 0⟩, hdr := ⟨0x1000, 0xABCD, 1, 2, 3, 0x80⟩ })).map
        (fun t => (t.ctrl, t.rsp, t.pos, t.hdr)) =
      some (.resp, ⟨0, false, false⟩, ⟨256, 0, 0⟩, ⟨0xFFFF, 0xABCD, 1, 2, 3, 0x80⟩) := by decide

/-- The six answers of EN-13's probe of (0,0,0). -/
def probe13 : List Dword := [0, 0x24CD8086, 0, 0x0C032000, 0, 0x00800000]

theorem test_enum_next_yields :
    (nextOf (exec .enumNext (fresh (prompt probe13)))).map (fun t => (t.rsp, t.pos, t.hdr, reqs t)) =
      some (⟨0, true, false⟩, ⟨0, 0, 0⟩, ⟨0x8086, 0x24CD, 0x20, 0x03, 0x0C, 0x80⟩,
        [.write 0xCF8 0x80000000, .read 0xCFC, .write 0xCF8 0x80000008, .read 0xCFC, .write 0xCF8 0x8000000C,
          .read 0xCFC]) := by decide

theorem test_enum_next_exhausts :
    (nextOf (exec .enumNext
        { freshAt ⟨255, 31, 0⟩ [] with hdr := ⟨0x8086, 0x24CD, 0x20, 0x03, 0x0C, 0⟩ })).map
        (fun t => (t.ctrl, t.rsp, t.pos, t.hdr, reqs t)) =
      some (.resp, ⟨0, false, false⟩, ⟨256, 0, 0⟩, ⟨0xFFFF, 0x24CD, 0x20, 0x03, 0x0C, 0⟩, []) := by decide

/-- `advance` at the carries of EN-4, EN-8 and EN-10, and at the sentinel (EN-11). -/
theorem test_advance :
    advance true ⟨0, 3, 6⟩ = ⟨0, 3, 7⟩ ∧ advance true ⟨0, 3, 7⟩ = ⟨0, 4, 0⟩ ∧ advance false ⟨0, 31, 0⟩ = ⟨1, 0, 0⟩ ∧
      advance true ⟨255, 31, 7⟩ = ⟨256, 0, 0⟩ ∧ advance true ⟨256, 0, 0⟩ = ⟨0, 0, 0⟩ ∧
      advance true ⟨511, 31, 7⟩ = ⟨0, 0, 0⟩ ∧ advance false ⟨7, 30, 5⟩ = ⟨7, 31, 0⟩ := by decide

/-! ### Unassigned opcodes, reset, handshakes: IL-2, RS-1, HS-1, HS-4 -/

theorem test_illegal :
    (nextOf (step { idle 0xA_01_02_03_04_05060708 [] with rsp := ⟨7, true, false⟩ })).map
        (fun t => (t.ctrl, t.rsp, reqs t, t.pos)) =
      some (.resp, ⟨0, false, true⟩, [], ⟨256, 0, 0⟩) := by decide

theorem test_reset_wins_over_a_command :
    (nextOf (step { State.reset with
        inputs := [{ offerPins 0x1_00_00_00_00_00000000 with rst := true }], rsp := ⟨7, true, true⟩ })).map
        (fun t => (t.ctrl, t.rsp, t.hdr)) =
      some (.idle, ⟨0, false, false⟩, ⟨0xFFFF, 0, 0, 0, 0, 0⟩) := by decide

theorem test_offered_command_waits_for_the_response :
    (nextOf (step { idle 0x1_00_00_00_00_00000000 [] with ctrl := .resp })).map (fun t => (t.ctrl, t.cmdOffer)) =
      some (.resp, .waiting ⟨1, 0, 0, 0, 0, 0⟩) := by decide

theorem test_spurious_completion :
    (nextOf (step { State.reset with inputs := [doneEdge 5] })).map (fun t => (t.ctrl, t.rsp, t.temps)) =
      some (.idle, State.reset.rsp, State.reset.temps) := by decide

/-- R221: a reset aborts an outstanding read, whose completion is due then. -/
theorem test_reset_leaves_a_completion_due :
    (nextOf (exec (.rdDword 0 0 0 0) (fresh (prompt [0] ++ [readyEdge, resetPins])))).map (fun t => (t.ctrl, t.lateDue)) =
      some (.idle, 1) := by decide

/-- R221: that completion is ignored though the next command's transactions are outstanding when it arrives. -/
theorem test_late_completion_is_ignored :
    (nextOf (exec (.rdDword 0 0 0 0)
        { fresh [readyEdge, lateEdge 7, doneEdge 0, readyEdge, lateEdge 9] with lateDue := 1 })).map
        (fun t => (t.ctrl, t.rsp.data, t.lateDue)) =
      some (.resp, 9, 0) := by decide

theorem test_outputs_after_reset :
    (outputs false State.reset).cmdReady = true ∧ (outputs true State.reset).cmdReady = false ∧
      (outputs false State.reset).rspValid = false ∧ (outputs false State.reset).busy = false ∧
      (outputs false State.reset).ioReqValid = false ∧ (outputs false State.reset).enum = ⟨256, 0, 0⟩ := by decide

/-- The offered word runs at the next step, here up to its first request (R113, log entry 13). -/
theorem test_withFetchWord :
    (nextOf (step (State.reset.withFetchWord 72 0x3_00_03_00_10_FFFFFFFF))).map (fun t => (t.ctrl, t.cmd, t.io)) =
      some (.busy, ⟨3, 0, 3, 0, 0x10, 0xFFFFFFFF⟩, .offered (.write 0xCF8 0x80001810)) := by decide

/-! ### Witnesses: for each statement with hypotheses, a state and operands that meet them all -/

/-- A command's next state, for the hypothesis `exec i s = .next t`. -/
def after (i : Instr) (s : State) : State :=
  runEdges (sequencerOf i) s.inputs (start (sequencerOf i) s)

theorem exec_after (i : Instr) (s : State) : exec i s = .next (after i s) := exec_next i s

theorem test_witness_EncodeAnswersTheAddress : (Command.ofWord 0x1_01_02_03_10_00000000).op = 1 ∧
    (fresh []).io = .quiet := by decide

/-- For the six commands of two transactions: with waits before the acceptance and before the completion. -/
theorem test_witness_twoTransactions :
    Fresh (fresh (quietPins :: prompt [0, 0x24CD8086])) ∧
      served 2 0 (fresh (quietPins :: prompt [0, 0x24CD8086])).inputs = some ([0, 0x24CD8086], 0, []) ∧
      served 2 0 (fresh [readyEdge, readyEdge, doneEdge 1, doneEdge 2, readyEdge, doneEdge 3, resetPins]).inputs =
        some ([1, 3], 0, [resetPins]) ∧
      (Command.ofWord 0x2_00_00_00_00_00000000).op = 2 ∧ (Command.ofWord 0x3_00_00_00_00_00000000).op = 3 ∧
      (Command.ofWord 0x4_00_00_00_00_00000000).op = 4 ∧ (Command.ofWord 0x5_00_00_00_00_00000000).op = 5 ∧
      (Command.ofWord 0x8_00_00_00_00_00000000).op = 8 ∧ (Command.ofWord 0x9_00_00_00_00_00000000).op = 9 := by decide

/-- The clauses of EveryBarIndexIsAccepted at the ends of their ranges. -/
theorem test_witness_EveryBarIndexIsAccepted :
    barOffset 0 = 0x10 ∧ barOffset 59 = 0xFC ∧ barOffset 60 = 0 ∧ barOffset 63 = 0x0C ∧ barOffset 64 = barOffset 0 ∧
      barOffset 255 = barOffset 191 := by decide

theorem test_witness_NarrowReadsMakeTheDwordTransactions :
    ∃ t w b, exec (.rdDword 0 0 0 3) (fresh (prompt [0, 0x24CD8086])) = .next t ∧
      exec (.rdWord 0 0 0 3) (fresh (prompt [0, 0x24CD8086])) = .next w ∧
      exec (.rdByte 0 0 0 3) (fresh (prompt [0, 0x24CD8086])) = .next b ∧ t.rsp.data ≠ w.rsp.data ∧ t.ctrl = .resp :=
  ⟨_, _, _, exec_after _ _, exec_after _ _, exec_after _ _, by decide, by decide⟩

theorem test_witness_EnumInitSetsTheInitState :
    (Command.ofWord 0x6_12_34_56_78_9ABCDEF0).op = 6 ∧ (fresh []).io = .quiet ∧
      exec .enumInit (fresh []) = .next (after .enumInit (fresh [])) :=
  ⟨by decide, by decide, exec_after _ _⟩

/-- The four clauses of AdvanceTakesOneStep at the ends of their ranges: each position meets one premise. -/
theorem test_witness_AdvanceTakesOneStep :
    advance false ⟨256, 0, 0⟩ = ⟨0, 0, 0⟩ ∧ advance true ⟨511, 31, 7⟩ = ⟨0, 0, 0⟩ ∧
      advance true ⟨255, 31, 6⟩ = ⟨255, 31, 7⟩ ∧ advance true ⟨0, 0, 0⟩ = ⟨0, 0, 1⟩ ∧
      advance true ⟨255, 30, 7⟩ = ⟨255, 31, 0⟩ ∧ advance false ⟨0, 0, 0⟩ = ⟨0, 1, 0⟩ ∧
      advance false ⟨0, 31, 3⟩ = ⟨1, 0, 0⟩ ∧ advance true ⟨255, 31, 7⟩ = ⟨256, 0, 0⟩ := by decide

/-- The three clauses of EnumNextFollowsItsLoop: exhaustion, a present function, an absent one. -/
theorem test_witness_EnumNextFollowsItsLoop :
    Fresh (freshAt ⟨255, 31, 0⟩ []) ∧
      atSentinel (advance (multifunction (freshAt ⟨255, 31, 0⟩ []).hdr) (freshAt ⟨255, 31, 0⟩ []).pos) = true ∧
      Fresh (fresh (prompt probe13)) ∧
      atSentinel (advance (multifunction (fresh []).hdr) (fresh []).pos) = false ∧
      served 6 0 (fresh (prompt probe13)).inputs = some (probe13, 0, []) ∧
      present (headerOf 0x24CD8086 0x0C032000 0x00800000) = true ∧
      served 6 0 (prompt [0, 0xFFFFFFFF, 0, 1, 0, 2]) = some ([0, 0xFFFFFFFF, 0, 1, 0, 2], 0, []) ∧
      present (headerOf 0xFFFFFFFF 1 2) = false := by decide

theorem servedOne_prompt (v : Dword) (ps : List Pins) :
    servedOne false 0 (readyEdge :: doneEdge v :: ps) = some (v, 0, ps) := rfl

/-- Prompt edges serve every number of transactions. -/
theorem served_prompt : ∀ vs : List Dword, served vs.length 0 (prompt vs) = some (vs, 0, [])
  | [] => rfl
  | v :: vs => by simp only [prompt, List.length_cons, served, servedOne_prompt, served_prompt vs]

theorem test_witness_EnumNextCompletes :
    ∃ vs, Fresh (fresh (prompt vs)) ∧ served Config.maxTransactions 0 (fresh (prompt vs)).inputs = some (vs, 0, []) :=
  ⟨List.replicate Config.maxTransactions 0xFFFFFFFF, ⟨rfl, rfl⟩, by
    have h := served_prompt (List.replicate Config.maxTransactions 0xFFFFFFFF)
    rwa [List.length_replicate] at h⟩

/-- An absent slot, then a present one: two probes. -/
def twoProbes : List Dword := [0, 0xFFFFFFFF, 0, 0, 0, 0] ++ probe13

theorem test_witness_EnumNext_twelve_transactions :
    ∃ t, Fresh (fresh (prompt twoProbes)) ∧ exec .enumNext (fresh (prompt twoProbes)) = .next t ∧
      t.responder.history.length = 12 ∧ t.ctrl = .resp ∧ t.rsp.found = true ∧ t.pos = ⟨0, 1, 0⟩ :=
  ⟨_, ⟨rfl, rfl⟩, exec_after _ _, by decide, by decide, by decide, by decide⟩

/-- EnumNextAddressesStrictlyIncrease: the six addresses of two probes. -/
theorem test_witness_EnumNextAddressesStrictlyIncrease :
    addressesOf (after .enumNext (fresh (prompt twoProbes))).responder.history =
      [0x80000000, 0x80000008, 0x8000000C, 0x80000800, 0x80000808, 0x8000080C] := by decide

theorem test_witness_AdvanceIncreasesThePosition : (Position.mk 255 31 7).bus.toNat < 256 ∧
    positionKey ⟨255, 31, 7⟩ = 65535 ∧ positionKey (advance true ⟨255, 31, 7⟩) = 65536 := by decide

theorem test_witness_EnumNextAtTheSentinelStartsAPass :
    Fresh (fresh []) ∧ 256 ≤ (fresh []).pos.bus.toNat ∧ (fresh []).inputs = [] ∧
      256 ≤ (freshAt ⟨511, 31, 7⟩ []).pos.bus.toNat := by decide

/-- Exhaustion with no probe, and after one absent probe at the last slot. -/
theorem test_witness_ExhaustionLeavesTheInitPosition :
    Fresh (freshAt ⟨255, 31, 0⟩ []) ∧ (after .enumNext (freshAt ⟨255, 31, 0⟩ [])).ctrl = .resp ∧
      (after .enumNext (freshAt ⟨255, 31, 0⟩ [])).rsp.found = false ∧
      (after .enumNext (freshAt ⟨255, 31, 0⟩ [])).responder.history = [] ∧
      (after .enumNext (freshAt ⟨255, 30, 0⟩ (prompt [0, 0xFFFFFFFF, 0, 0, 0, 0]))).rsp.found = false ∧
      (after .enumNext (freshAt ⟨255, 30, 0⟩ (prompt [0, 0xFFFFFFFF, 0, 0x0C032000, 0, 0x00800000]))).hdr =
        ⟨0xFFFF, 0xFFFF, 0x20, 0x03, 0x0C, 0x80⟩ ∧
      reqs (after .enumNext (freshAt ⟨255, 30, 0⟩ (prompt [0, 0xFFFFFFFF, 0, 0, 0, 0]))) =
        [.write 0xCF8 0x80FFF800, .read 0xCFC, .write 0xCF8 0x80FFF808, .read 0xCFC, .write 0xCF8 0x80FFF80C,
          .read 0xCFC] := by decide

/-- The configuration space of EN-13. -/
def cfg13 (a : Dword) : Dword :=
  if a = 0x80000000 then 0x24CD8086 else if a = 0x80000008 then 0x0C032000
  else if a = 0x8000000C then 0x00800000 else 0xFFFFFFFF

theorem test_witness_EnumNextRefinesThePureLoop :
    ∃ t, Fresh (fresh (prompt probe13)) ∧ exec .enumNext (fresh (prompt probe13)) = .next t ∧ t.ctrl = .resp ∧
      t.responder.history = (fresh (prompt probe13)).responder.history ++
        probeTxns ⟨0, 0, 0⟩ 0x24CD8086 0x0C032000 0x00800000 ∧
      ReadsFrom cfg13 (probeTxns ⟨0, 0, 0⟩ 0x24CD8086 0x0C032000 0x00800000) := by
  refine ⟨_, ⟨rfl, rfl⟩, exec_after _ _, by decide, by decide, ?_⟩
  intro a v h
  have h' : (a = probeAddress ⟨0, 0, 0⟩ 0 ∧ v = 0x24CD8086) ∨ (a = probeAddress ⟨0, 0, 0⟩ 8 ∧ v = 0x0C032000) ∨
      (a = probeAddress ⟨0, 0, 0⟩ 0xC ∧ v = 0x00800000) := by
    simpa [probeTxns, readPair, Config.headerOffset0, Config.headerOffset2, Config.headerOffset3] using h
  rcases h' with ⟨rfl, rfl⟩ | ⟨rfl, rfl⟩ | ⟨rfl, rfl⟩ <;> decide

theorem test_witness_PassProbesExactlyTheVisibleSlots : (1 : BitVec 3) ≠ 0 ∧ (0 : BitVec 3) < 1 ∧
    multifunction (headerAt cfg13 (slot 0 0 0)) = true ∧ (passAfter cfg13 default 2).1 = slot 0 0 1 := by decide

theorem test_witness_OtherCommandsKeepTheEnumerator :
    Instr.encodeAddr 9 9 9 9 ≠ .enumInit ∧ Instr.encodeAddr 9 9 9 9 ≠ .enumNext ∧ noReset (fresh []).inputs ∧
      exec (.encodeAddr 9 9 9 9) (fresh []) = .next (after (.encodeAddr 9 9 9 9) (fresh [])) :=
  ⟨by decide, by decide, by decide, exec_after _ _⟩

/-- A word for each clause of EncodeOfDecodeKeepsTheUsedFields: no operand, four operands, four and a value. -/
theorem test_witness_EncodeOfDecodeKeepsTheUsedFields :
    (decode 0x6_12_34_56_78_9ABCDEF0 = .ok .enumInit ∧ (Command.ofWord 0x6_12_34_56_78_9ABCDEF0).op = 6) ∧
      (decode 0x7_12_34_56_78_9ABCDEF0 = .ok .enumNext ∧ (Command.ofWord 0x7_12_34_56_78_9ABCDEF0).op = 7) ∧
      decode 0x1_12_34_56_78_9ABCDEF0 = .ok (.encodeAddr 0x12 0x34 0x56 0x78) ∧
      decode 0x3_12_34_56_78_9ABCDEF0 = .ok (.wrDword 0x12 0x34 0x56 0x78 0x9ABCDEF0) ∧
      decode 0x9_12_34_56_78_9ABCDEF0 = .ok (.wrBar 0x12 0x34 0x56 0x78 0x9ABCDEF0) :=
  ⟨⟨rfl, rfl⟩, ⟨rfl, rfl⟩, rfl, rfl, rfl⟩

/-- The opcodes at the ends of the two unassigned ranges, and a command that answers with the error bit clear. -/
theorem test_witness_UnassignedOpcodeRespondsIllegal :
    (∀ op ∈ [(0 : BitVec 4), 0xA, 0xF], op = 0 ∨ 0xA ≤ op.toNat) ∧
      (idle 0xA_00_00_00_00_00000000 []).ctrl = .idle ∧
      (offerPins 0xA_00_00_00_00_00000000).rst = false ∧ (offerPins 0xA_00_00_00_00_00000000).cmdValid = true ∧
      (idle 0xA_00_00_00_00_00000000 []).cmdOffer = .nothing ∧ (offerPins 0xA_00_00_00_00_00000000).cmd.op = 0xA ∧
      (after (.encodeAddr 0 0 0 0) (fresh [])).ctrl = .resp := by decide

theorem test_witness_answered_commands :
    (after (.encodeAddr 0 0 0 0) (fresh [])).ctrl = .resp ∧ (after .enumInit (fresh [])).ctrl = .resp ∧
      Fresh (fresh (prompt [0, 5])) ∧ noReset (fresh (prompt [0, 5])).inputs ∧
      (after (.rdDword 0 0 0 0) (fresh (prompt [0, 5]))).ctrl = .resp ∧
      (after (.wrBar 0 0 0 0 7) (fresh (prompt [0, 5]))).ctrl = .resp := by decide

/-- StepRunsTheDecodedCommand: a command offered at once, one that had to wait, and a BUSY block. -/
theorem test_witness_StepRunsTheDecodedCommand :
    let w := encode (.rdByte 0 1 0 0xFF)
    (idle w []).ctrl = .idle ∧ (idle w []).inputs = [offerPins w] ∧ (offerPins w).rst = false ∧
      (offerPins w).cmdValid = true ∧ (idle w []).cmdOffer = .nothing ∧
      { idle w [] with cmdOffer := .waiting (offerPins w).cmd }.cmdOffer = .waiting (offerPins w).cmd ∧
      (match (offerPins w).cmd.decode with | .ok i => some i | .error _ => none) = some (.rdByte 0 1 0 0xFF) ∧
      { fresh [] with cmd := (offerPins w).cmd }.ctrl = .busy := by decide

theorem test_witness_OfferedWordIsTheNextCommand : decodeTableWord 72 0x7_00_00_00_00_00000000 = some .enumNext := by
  decide

/-- ResponseIsHeldUntilTaken: a response not taken, one taken, and a command that has not answered. -/
theorem test_witness_ResponseIsHeldUntilTaken :
    quietPins.rst = false ∧ quietPins.rspReady = false ∧
      { State.reset with ctrl := .resp, inputs := [quietPins] }.ctrl = .resp ∧
      { quietPins with rspReady := true }.rspReady = true ∧
      (after (.rdDword 0 0 0 0) (fresh [])).ctrl = .busy := by decide

theorem test_witness_SpuriousCompletionIsIgnored :
    { State.reset with inputs := [doneEdge 5] }.ctrl = .idle ∧ (doneEdge 5).rst = false ∧
      (doneEdge 5).cmdValid = false ∧ (doneEdge 5).ioRspValid = true ∧
      { fresh [doneEdge 5] with io := .offered dataRead }.io = .offered dataRead ∧
      { fresh [doneEdge 5] with io := .offered dataRead }.inputs = [doneEdge 5] ∧
      { fresh [lateEdge 5] with io := .outstanding dataRead, lateDue := 1 }.inputs = [lateEdge 5] ∧
      (lateEdge 5).rst = false ∧ isLate (lateEdge 5) 1 = true := by decide

/-- UnservedCommandHangs: never accepted, never completed, and just accepted. -/
theorem test_witness_UnservedCommandHangs :
    ioActive (IoPhase.offered dataRead) = true ∧ servedOne false 0 [quietPins, doneEdge 5] = none ∧
      ioActive (IoPhase.outstanding dataRead) = true ∧ servedOne true 0 [readyEdge] = none ∧
      noReset [quietPins, doneEdge 5] ∧ noReset [readyEdge] ∧ Fresh (fresh [readyEdge]) ∧
      servedOne false 0 (fresh [readyEdge]).inputs = none ∧
      atSentinel (advance (multifunction (fresh [readyEdge]).hdr) (fresh [readyEdge]).pos) = false := by decide

/-- UnservedCommandHangs, after some transactions: HS-3, whose data read never completes; and an ENUM_NEXT that served
one absent probe and the next address write. -/
theorem test_witness_UnservedCommandHangs_later :
    Fresh (fresh (prompt [0] ++ [readyEdge])) ∧ noReset (fresh (prompt [0] ++ [readyEdge])).inputs ∧
      served 1 0 (fresh (prompt [0] ++ [readyEdge])).inputs = some ([0], 0, [readyEdge]) ∧
      served 2 0 (fresh (prompt [0] ++ [readyEdge])).inputs = none ∧
      needsMore (.rdDword 0 0 0 0) (fresh []) [0] = true ∧
      served 7 0 (prompt [0, 0xFFFFFFFF, 0, 1, 0, 2, 0]) = some ([0, 0xFFFFFFFF, 0, 1, 0, 2, 0], 0, []) ∧
      served 8 0 (prompt [0, 0xFFFFFFFF, 0, 1, 0, 2, 0]) = none ∧
      needsMore .enumNext (fresh []) [0, 0xFFFFFFFF, 0, 1, 0, 2, 0] = true ∧
      needsMore .enumNext (fresh []) probe13 = false ∧
      needsMore .enumNext (freshAt ⟨255, 30, 0⟩ []) [0, 0xFFFFFFFF, 0, 1, 0, 2] = false := by decide

theorem test_witness_CommandPinsHaveNoEffectWhileBusy :
    List.Forall₂ (fun p q : Pins => p.rst = q.rst ∧ p.ioReqReady = q.ioReqReady ∧ p.ioRspValid = q.ioRspValid ∧
      p.ioRspRdata = q.ioRspRdata ∧ p.ioRspLate = q.ioRspLate) (fresh [readyEdge]).inputs
      [{ readyEdge with cmdValid := true, cmd := ⟨1, 2, 3, 4, 5, 6⟩, rspReady := true }] :=
  .cons ⟨rfl, rfl, rfl, rfl, rfl⟩ .nil

theorem test_witness_OldLatchReachesNoResult : Fresh (fresh (prompt [0, 5])) := by decide

/-- ResetEdgeRestoresEveryRegister: in IDLE, in RESP, and in BUSY with a request under way. -/
theorem test_witness_ResetEdgeRestoresEveryRegister :
    resetPins.rst = true ∧ { State.reset with inputs := [resetPins] }.ctrl = .idle ∧
      { State.reset with inputs := [resetPins], ctrl := .resp }.ctrl = .resp ∧
      ioActive { fresh [resetPins] with io := .outstanding dataRead, cmd := ⟨2, 0, 0, 0, 0, 0⟩ }.io = true ∧
      opAssigned { fresh [resetPins] with io := .outstanding dataRead, cmd := ⟨2, 0, 0, 0, 0, 0⟩ }.cmd = true := by
  decide

/-- The same, and ResetEdgeAbortsAtTheResponder, in the middle of a command: after its address write, with the data read issued (RS-3, RS-4). -/
theorem test_witness_ResetEdge_in_the_middle :
    (after (.rdDword 0 0 0 0) (fresh (prompt [0] ++ [readyEdge, resetPins, quietPins]))).ctrl = .idle ∧
      (after (.rdDword 0 0 0 0) (fresh (prompt [0] ++ [readyEdge, resetPins, quietPins]))).inputs = [quietPins] := by
  decide

theorem test_witness_ResetEdgeBusyDecodes :
    (Command.mk 2 0 0 0 0 0).decode = .ok (.rdDword 0 0 0 0) := rfl

/-- The clauses of AbortRecordsTheIssuedTransaction: nothing issued; issued and still due after the reset, or completed at
its edge; accepted at the reset edge. -/
theorem test_witness_AbortRecordsTheIssuedTransaction :
    (∀ req, (fresh []).io ≠ .outstanding req) ∧ (∀ req, (fresh []).io = .offered req → resetPins.ioReqReady = false) ∧
      { fresh [] with io := .outstanding (dataWrite 5) }.io = .outstanding (dataWrite 5) ∧
      ownCompletion resetPins 0 = false ∧ ownCompletion { doneEdge 5 with rst := true } 0 = true ∧
      { fresh [] with io := .offered (dataWrite 5) }.io = .offered (dataWrite 5) :=
  ⟨fun _ h => (nomatch h), fun _ _ => rfl, rfl, rfl, rfl, rfl⟩

/-- What is due after a reset edge: one more, or nothing where the completion arrives at that edge (R221). -/
theorem test_lateAfterReset :
    lateAfterReset resetPins { fresh [] with io := .outstanding dataRead } = 1 ∧
      lateAfterReset { doneEdge 5 with rst := true } { fresh [] with io := .outstanding dataRead } = 0 ∧
      lateAfterReset { lateEdge 5 with rst := true } { fresh [] with io := .outstanding dataRead, lateDue := 1 } = 1 ∧
      lateAfterReset resetPins { fresh [] with io := .offered dataRead } = 0 := by decide

theorem test_witness_OutputsShowTheRegisters : State.reset.ctrl ≠ .busy := by decide

/-- RequestPinsShowTheOfferedRequest: the invariant, and a waiting read with edges that do not accept it. -/
theorem test_witness_RequestPinsShowTheOfferedRequest :
    portInv (fresh []) = true ∧ portInv { fresh [] with io := .offered (addrWrite 0 0 0 0) } = true ∧
      ioReqValid { fresh [quietPins, doneEdge 1] with io := .offered dataRead } = true ∧
      ∀ p ∈ { fresh [quietPins, doneEdge 1] with io := .offered dataRead }.inputs,
        p.rst = false ∧ p.ioReqReady = false := by decide

/-- R37: a read offered at tick 3 shows the same io_req_wdata however long it waits. -/
theorem test_waiting_read_holds_wdata :
    let s := offer dataRead { fresh [quietPins, doneEdge 1] with tick := 3 }
    (nextOf (exec (.rdDword 0 0 0 0) s)).map (fun t => (t.io, t.offeredAt, t.tick)) =
      some (.offered dataRead, 3, 5) := by decide

/-- A BUSY state, with its address write issued, that meets the three invariants; its step goes on. -/
def issuedRead : State :=
  { fresh [doneEdge 0] with io := .outstanding (addrWrite 0 0 0 0), cmd := ⟨2, 0, 0, 0, 0, 0⟩ }

theorem test_witness_invariants : enumInv issuedRead = true ∧ portInv issuedRead = true ∧ pairInv issuedRead = true ∧
    (nextOf (step issuedRead)).map (fun t => (t.ctrl, t.io, reqs t)) =
      some (.busy, .offered dataRead, [addrWrite 0 0 0 0]) := by decide

/-! ### Read-modify-write (R118, R234) -/

/-- An idle block with edges that offer no command. -/
def quietIdle (ps : List Pins) : State := { State.reset with inputs := ps }

/-- The low byte of a dword replaced by 0xAA. -/
def setLowByte (v : Dword) : Dword := v &&& 0xFFFFFF00 ||| 0xAA

theorem test_readModifyWrite :
    (nextOf (readModifyWrite 0 3 0 0x10 setLowByte [] (quietIdle (prompt [0, 0x11223344, 0, 0])))).map
        (fun t => (t.ctrl, reqs t)) =
      some (.resp, [.write 0xCF8 0x80001810, .read 0xCFC, .write 0xCF8 0x80001810, .write 0xCFC 0x112233AA]) := by
  decide

/-- A WR_DWORD to the same dword in between is accepted, and what it wrote is lost. -/
theorem test_readModifyWrite_lost_update :
    (nextOf (readModifyWrite 0 3 0 0x10 setLowByte [0x3_00_03_00_10_55667788]
        (quietIdle (prompt [0, 0x11223344, 0, 0, 0, 0])))).map (fun t => (t.ctrl, reqs t)) =
      some (.resp, [.write 0xCF8 0x80001810, .read 0xCFC, .write 0xCF8 0x80001810, .write 0xCFC 0x55667788,
        .write 0xCF8 0x80001810, .write 0xCFC 0x112233AA]) := by decide

/-- A reset aborts the read (R221): the master writes nothing (assumption 20). -/
theorem test_readModifyWrite_reset_in_the_read :
    (nextOf (readModifyWrite 0 3 0 0x10 setLowByte [] (quietIdle (prompt [0] ++ [resetPins] ++ prompt [0, 0])))).map
        (fun t => (t.ctrl, reqs t)) = some (.idle, [.write 0xCF8 0x80001810]) := by decide

theorem test_witness_ReadModifyWriteTakesTwoCommands :
    (quietIdle (prompt [0, 5, 0, 0])).ctrl ≠ .busy ∧ (quietIdle (prompt [0, 5, 0, 0])).cmdOffer = .nothing ∧
      (∀ p ∈ (quietIdle (prompt [0, 5, 0, 0])).inputs, p.cmdValid = false) ∧
      served 4 0 (quietIdle (prompt [0, 5, 0, 0])).inputs = some ([0, 5, 0, 0], 0, []) := by decide

/-- NothingMakesAReadModifyWriteAtomic: the response taken and an unassigned opcode offered; a read-modify-write with that
command between, which completes; and one with a write between. -/
theorem test_witness_NothingMakesAReadModifyWriteAtomic :
    let t := { State.reset with ctrl := .resp, inputs := [takePins, offerPins 0] }
    t.ctrl = .resp ∧ t.inputs = [takePins, offerPins 0] ∧ takePins.rst = false ∧ takePins.rspReady = true ∧
      (offerPins 0).rst = false ∧ (offerPins 0).cmdValid = true ∧ t.cmdOffer.watch takePins = .nothing ∧
      noReset (quietIdle (prompt [0, 5, 0, 0])).inputs ∧
      (nextOf (readModifyWrite 0 0 0 0 id [0] (quietIdle (prompt [0, 5, 0, 0])))).map (·.ctrl) = some .resp ∧
      (∀ p ∈ (quietIdle (prompt [0, 5, 0, 0, 0, 0])).inputs, p.cmdValid = false) ∧
      served 6 0 (quietIdle (prompt [0, 5, 0, 0, 0, 0])).inputs = some ([0, 5, 0, 0, 0, 0], 0, []) := by decide

end Sys2Proof.Tests
end

section
/-!
PROOFS. O53, the port invariant: every request the block makes is an address write of a legal value, a data read or a
data write. Only the sequencers choose requests, so what a sequencer can do is said first, for all commands; then each
kind of edge keeps `portInv`, because it makes no request but records the one under way.
-/

namespace Sys2Proof.Machine

/-! ### The requests a sequencer makes -/

/-- R81: the encoded address is one the block may write to the address port. -/
theorem legalAddress_cfgAddress (bus dev fn off : Byte) : legalAddress (cfgAddress bus dev fn off) = true := by
  have hn := cfgAddress_toNat bus dev fn off
  have hbus := bus.isLt
  have hoff := off.isLt
  have hi : (cfgAddress bus dev fn off).getLsbD 31 = true := by
    simp only [BitVec.getLsbD, Nat.testBit_eq_decide_div_mod_eq, decide_eq_true_eq]
    omega
  have hmid : (cfgAddress bus dev fn off).extractLsb' 24 7 = 0#7 := by
    apply BitVec.eq_of_toNat_eq
    simp only [BitVec.extractLsb'_toNat, Nat.shiftRight_eq_div_pow, BitVec.toNat_ofNat]
    omega
  have hlo : (cfgAddress bus dev fn off).extractLsb' 0 2 = 0#2 := by
    apply BitVec.eq_of_toNat_eq
    simp only [BitVec.extractLsb'_toNat, Nat.shiftRight_eq_div_pow, BitVec.toNat_ofNat]
    omega
  simp [legalAddress, hi, hmid, hlo]

@[simp] theorem legalReq_addrWrite (bus dev fn off : Byte) : legalReq (addrWrite bus dev fn off) = true := by
  simp [legalReq, addrWrite, legalAddress_cfgAddress]

@[simp] theorem legalReq_probeWrite (p : Position) (off : Byte) : legalReq (probeWrite p off) = true :=
  legalReq_addrWrite _ _ _ off

@[simp] theorem legalReq_dataRead : legalReq dataRead = true := rfl

@[simp] theorem legalReq_dataWrite (v : Dword) : legalReq (dataWrite v) = true := by
  simp [legalReq, dataWrite]

/-- What a sequencer's move can be: it updates at most the position, the header and the temporaries, and then it
responds or it offers one of the three legal requests. -/
inductive SequencerMove (s : State) : State → Prop where
  | respond (pos : Position) (hdr : Header) (temps : Temps) (data : Dword) (found err : Bool) :
    SequencerMove s (respond data found err { s with pos, hdr, temps })
  | offer (pos : Position) (hdr : Header) (temps : Temps) (req : IoReq) (legal : legalReq req = true) :
    SequencerMove s (offer req { s with pos, hdr, temps })

theorem cfgReadDword_move (bus dev fn off : Byte) (result : Dword → Dword) (s : State) :
    SequencerMove s (cfgReadDword bus dev fn off (fun v => respond (result v) false false) s) := by
  rcases cfgReadDword_cases bus dev fn off (fun v => respond (result v) false false) s with
    ⟨_, e⟩ | ⟨_, e⟩ | ⟨_, e⟩ <;> rw [e]
  · exact .offer s.pos s.hdr s.temps _ (legalReq_addrWrite bus dev fn off)
  · exact .offer s.pos s.hdr s.temps _ legalReq_dataRead
  · exact .respond s.pos s.hdr s.temps _ _ _

theorem cfgWriteDword_move (bus dev fn off : Byte) (value : Dword) (s : State) :
    SequencerMove s (cfgWriteDword bus dev fn off value (respond 0 false false) s) := by
  rcases cfgWriteDword_cases bus dev fn off value (respond 0 false false) s with
    ⟨_, e⟩ | ⟨_, e⟩ | ⟨_, e⟩ <;> rw [e]
  · exact .offer s.pos s.hdr s.temps _ (legalReq_addrWrite bus dev fn off)
  · exact .offer s.pos s.hdr s.temps _ (legalReq_dataWrite value)
  · exact .respond s.pos s.hdr s.temps _ _ _

/-- A round of the loop, from a state whose header and temporaries the probe before it has loaded. -/
theorem enumRound_move (s : State) (hdr : Header) (temps : Temps) :
    SequencerMove s (enumRound { s with hdr, temps }) := by
  rcases enumRound_cases { s with hdr, temps } with ⟨_, e⟩ | ⟨_, e⟩ <;> rw [e]
  · exact .respond _ _ _ _ _ _
  · exact .offer _ _ _ _ (legalReq_probeWrite _ _)

theorem probeDone_move (s : State) (temps : Temps) : SequencerMove s (probeDone { s with temps }) := by
  unfold probeDone
  dsimp only
  split
  · exact .respond _ _ _ _ _ _
  · exact enumRound_move s _ _

theorem enumNextSeq_move (s : State) : SequencerMove s (enumNextSeq s) := by
  unfold enumNextSeq
  split
  · exact enumRound_move s s.hdr s.temps
  · exact .offer s.pos s.hdr s.temps _ legalReq_dataRead
  · exact .offer s.pos s.hdr _ _ (legalReq_probeWrite _ _)
  · exact .offer s.pos s.hdr s.temps _ legalReq_dataRead
  · exact .offer s.pos s.hdr _ _ (legalReq_probeWrite _ _)
  · exact .offer s.pos s.hdr s.temps _ legalReq_dataRead
  · exact probeDone_move s _

/-- Every command's sequencer makes only such moves. -/
theorem sequencerOf_move (i : Instr) (s : State) : SequencerMove s (sequencerOf i s) := by
  cases i with
  | encodeAddr => exact .respond s.pos s.hdr s.temps _ _ _
  | rdDword bus dev fn off => exact cfgReadDword_move bus dev fn off id s
  | wrDword bus dev fn off value => exact cfgWriteDword_move bus dev fn off value s
  | rdWord bus dev fn off => exact cfgReadDword_move bus dev fn off (wordOf · off) s
  | rdByte bus dev fn off => exact cfgReadDword_move bus dev fn off (byteOf · off) s
  | enumInit => exact .respond _ _ s.temps _ _ _
  | enumNext => exact enumNextSeq_move s
  | rdBar bus dev fn index => exact cfgReadDword_move bus dev fn (barOffset index) id s
  | wrBar bus dev fn index value => exact cfgWriteDword_move bus dev fn (barOffset index) value s

/-! ### The history an edge leaves -/

/-- Every transaction of a history was one of the three legal requests. -/
def legalHistory (h : List IoTxn) : Prop :=
  ∀ x ∈ h, legalReq x.req = true

theorem portInv_iff (s : State) :
    portInv s = true ↔ legalHistory s.responder.history ∧ ioReqOk legalReq s.io = true := by
  simp [portInv, legalHistory]

/-- Recording the end of a legal request keeps the history legal. -/
theorem legalHistory_append_txnOf {h : List IoTxn} {req : IoReq} (hh : legalHistory h) (hreq : legalReq req = true)
    (latch : Dword) (ending : TxnEnd) : legalHistory (h ++ [txnOf req latch ending]) := by
  intro x hx
  rcases List.mem_append.mp hx with hx | hx
  · exact hh x hx
  · obtain rfl := List.mem_singleton.mp hx
    exact hreq

/-- What a reset aborts is the request under way. -/
theorem abortedReq_ok {ok : IoReq → Bool} {p : Pins} {s : State} {req : IoReq} (h : abortedReq p s = some req)
    (hio : ioReqOk ok s.io = true) : ok req = true := by
  unfold abortedReq at h
  split at h
  · simp_all [ioReqOk]
  · simp_all [ioReqOk]
  · cases h

theorem abortIo_legalHistory {p : Pins} {s : State} (h : portInv s = true) :
    legalHistory (abortIo p s).history := by
  obtain ⟨hh, hio⟩ := (portInv_iff s).mp h
  unfold abortIo
  split
  · next req ha => exact legalHistory_append_txnOf hh (abortedReq_ok ha hio) _ _
  · exact hh

/-! ### What keeps the invariant -/

/-- Without a request under way the invariant is about the history alone. -/
theorem portInv_of_quiet {s : State} (hio : s.io = .quiet) (hh : legalHistory s.responder.history) :
    portInv s = true :=
  (portInv_iff s).mpr ⟨hh, by simp [hio, ioReqOk]⟩

theorem portInv_resetEdge (p : Pins) (s : State) (h : portInv s = true) : portInv (resetEdge p s) = true :=
  portInv_of_quiet rfl (abortIo_legalHistory h)

theorem portInv_issue (p : Pins) (s : State) (req : IoReq) (hio : s.io = .offered req) (h : portInv s = true) :
    portInv (issue req (passEdge p s)) = true := by
  rw [portInv_iff, hio] at h
  exact (portInv_iff _).mpr h

theorem portInv_complete (p : Pins) (s : State) (req : IoReq) (v : Dword) (hio : s.io = .outstanding req)
    (h : portInv s = true) : portInv (complete req v (passEdge p s)) = true := by
  rw [portInv_iff, hio] at h
  obtain ⟨hh, hreq⟩ := h
  exact portInv_of_quiet rfl (legalHistory_append_txnOf hh hreq _ _)

theorem SequencerMove.keeps_portInv {s t : State} (hm : SequencerMove s t) (h : portInv s = true) :
    portInv t = true := by
  obtain ⟨hh, -⟩ := (portInv_iff s).mp h
  cases hm with
  | respond => exact portInv_of_quiet rfl hh
  | offer _ _ _ req legal => exact (portInv_iff _).mpr ⟨hh, legal⟩

theorem portInv_start (i : Instr) (s : State) (h : portInv s = true) :
    portInv (start (sequencerOf i) s) = true := by
  unfold start
  split
  · exact (sequencerOf_move i _).keeps_portInv h
  · exact h

/-- A command keeps the port invariant, however far its edges let it run. -/
theorem portInv_exec (i : Instr) {s t : State} (h : portInv s = true) (he : exec i s = .next t) :
    portInv t = true :=
  exec_keeps (P := fun s => portInv s = true) i
    (hin := fun _ _ h => h)
    (hreset := portInv_resetEdge)
    (hpass := fun _ _ h => h)
    (hissue := portInv_issue)
    (hcomplete := fun p s req v _ hio h => (sequencerOf_move i _).keeps_portInv (portInv_complete p s req v hio h))
    (hstart := portInv_start i) h he

/-- So does the latched command, legal or not. -/
theorem portInv_runLatched {s t : State} (h : portInv s = true) (he : runLatched s = .next t) :
    portInv t = true := by
  rcases runLatched_cases s with ⟨i, _, e⟩ | ⟨_, _, e⟩ <;> rw [e] at he
  · exact portInv_exec i h he
  · cases he
    exact portInv_of_quiet rfl ((portInv_iff s).mp h).1

/-- Settles O53: each thing a step can do keeps the port invariant. -/
theorem stepKeepsThePortInvariant : Obligations.StepKeepsThePortInvariant := by
  intro s t h hstep
  rcases step_cases s with
    ⟨_, e⟩ | ⟨_, _, e⟩ | ⟨p, ps, _, _, _, e⟩ | ⟨p, ps, _, _, _, _, e⟩ | ⟨p, ps, _, _, _, _, _, e⟩ |
      ⟨p, ps, _, _, _, _, e⟩
  · exact portInv_runLatched h (e.symm.trans hstep)
  · cases e.symm.trans hstep
    exact h
  · cases e.symm.trans hstep
    exact portInv_resetEdge p { s with inputs := ps } h
  · have accepted : portInv (accept p { s with inputs := ps }) = true :=
      portInv_of_quiet rfl ((portInv_iff s).mp h).1
    exact portInv_runLatched accepted (e.symm.trans hstep)
  · cases e.symm.trans hstep
    exact h
  · cases e.symm.trans hstep
    exact h

end Sys2Proof.Machine
end

section
/-!
PROOFS. The encodings of the family: the fields of the configuration-address value (O1) and of the command word (O31),
and the two response flags that every assigned command writes (O34).
-/

namespace Sys2Proof.Machine

/-! ### Fields as numbers -/

/-- A bit field is a value exactly when the quotient and remainder that cut it out are that number. -/
theorem extractLsb'_eq_iff {w : Nat} (x : BitVec w) (start len : Nat) (y : BitVec len) :
    x.extractLsb' start len = y ↔ x.toNat / 2 ^ start % 2 ^ len = y.toNat := by
  rw [← BitVec.toNat_inj, BitVec.extractLsb'_toNat, Nat.shiftRight_eq_div_pow]

/-- Two fields side by side, as a number. -/
theorem toNat_append_eq_mul_add {m n : Nat} (x : BitVec m) (y : BitVec n) :
    (x ++ y).toNat = x.toNat * 2 ^ n + y.toNat := by
  rw [BitVec.toNat_append, ← Nat.shiftLeft_add_eq_or_of_lt y.isLt, Nat.shiftLeft_eq]

/-! ### The configuration-address value -/

/-- R81's condition on an address, field by field. -/
theorem legalAddress_iff (a : Dword) :
    legalAddress a = true ↔ a.getLsbD 31 = true ∧ a.extractLsb' 24 7 = 0 ∧ a.extractLsb' 0 2 = 0 := by
  simp [legalAddress, and_assoc]

/-- Settles O1: the fixed bits of R80 are those of R81, and each operand's field is cut out of the sum of the fields. -/
theorem encodedAddressHasTheLayout : Obligations.EncodedAddressHasTheLayout := by
  intro bus dev fn off
  obtain ⟨enable, reserved, low⟩ := (legalAddress_iff _).mp (legalAddress_cfgAddress bus dev fn off)
  have value := cfgAddress_toNat bus dev fn off
  have hbus := bus.isLt
  have hoff := off.isLt
  refine ⟨enable, reserved, ?bus, ?dev, ?fn, ?off, low⟩
  all_goals
    simp only [extractLsb'_eq_iff, BitVec.extractLsb'_toNat, Nat.shiftRight_eq_div_pow]
    omega

/-! ### The command word -/

theorem toWord_toNat (c : Command) : c.toWord.toNat =
    ((((c.op.toNat * 256 + c.bus.toNat) * 256 + c.dev.toNat) * 256 + c.fn.toNat) * 256 + c.arg.toNat) * 2 ^ 32
      + c.wdata.toNat := by
  simp only [Command.toWord, toNat_append_eq_mul_add, Nat.reducePow]

theorem ofWord_toWord (c : Command) : Command.ofWord c.toWord = c := by
  have value := toWord_toNat c
  have hop := c.op.isLt
  have hbus := c.bus.isLt
  have hdev := c.dev.isLt
  have hfn := c.fn.isLt
  have harg := c.arg.isLt
  have hwdata := c.wdata.isLt
  rw [Command.ofWord, Command.mk.injEq]
  simp only [extractLsb'_eq_iff]
  omega

theorem toWord_ofWord (w : CommandWord) : (Command.ofWord w).toWord = w := by
  have hw := w.isLt
  rw [← BitVec.toNat_inj, toWord_toNat]
  simp only [Command.ofWord, BitVec.extractLsb'_toNat, Nat.shiftRight_eq_div_pow]
  omega

/-- Settles O31: R83's places of the six fields, both ways and as a number. -/
theorem commandWordHoldsTheSixFields : Obligations.CommandWordHoldsTheSixFields :=
  ⟨ofWord_toWord, toWord_ofWord, toWord_toNat⟩

/-! ### The response flags of an assigned command -/

/-- What R87 says of the response flags, for a block that has responded to `i`: RSP_ERR is 0, and RSP_FOUND is 0 but
for ENUM_NEXT. -/
def FlagsCleared (i : Instr) (s : State) : Prop :=
  s.ctrl = .resp → s.rsp.err = false ∧ (i ≠ .enumNext → s.rsp.found = false)

section

variable {i : Instr} {s : State}

/-- A block that has not responded has no flags to show. -/
theorem flagsCleared_of_busy (hb : s.ctrl = .busy) : FlagsCleared i s := by
  intro hc
  simp [hb] at hc

theorem flagsCleared_offer {req : IoReq} (hb : s.ctrl = .busy) : FlagsCleared i (offer req s) :=
  flagsCleared_of_busy hb

theorem flagsCleared_respond (d : Dword) : FlagsCleared i (respond d false false s) :=
  fun _ => ⟨rfl, fun _ => rfl⟩

theorem flagsCleared_respond_enumNext (d : Dword) (found : Bool) : FlagsCleared .enumNext (respond d found false s) :=
  fun _ => ⟨rfl, fun h => absurd rfl h⟩

theorem flagsCleared_cfgReadDword (hb : s.ctrl = .busy) (bus dev fn off : Byte) (result : Dword → Dword) :
    FlagsCleared i (cfgReadDword bus dev fn off (fun v => respond (result v) false false) s) := by
  rcases cfgReadDword_cases bus dev fn off (fun v => respond (result v) false false) s with
    ⟨_, e⟩ | ⟨_, e⟩ | ⟨_, e⟩ <;> rw [e]
  · exact flagsCleared_offer hb
  · exact flagsCleared_offer hb
  · exact flagsCleared_respond _

theorem flagsCleared_cfgWriteDword (hb : s.ctrl = .busy) (bus dev fn off : Byte) (value : Dword) :
    FlagsCleared i (cfgWriteDword bus dev fn off value (respond 0 false false) s) := by
  rcases cfgWriteDword_cases bus dev fn off value (respond 0 false false) s with
    ⟨_, e⟩ | ⟨_, e⟩ | ⟨_, e⟩ <;> rw [e]
  · exact flagsCleared_offer hb
  · exact flagsCleared_offer hb
  · exact flagsCleared_respond _

theorem flagsCleared_enumRound (hb : s.ctrl = .busy) : FlagsCleared i (enumRound s) := by
  rcases enumRound_cases s with ⟨_, e⟩ | ⟨_, e⟩ <;> rw [e]
  · exact flagsCleared_respond _
  · exact flagsCleared_offer hb

/-- A probe that found a present function is the one place where RSP_FOUND is written as 1. -/
theorem flagsCleared_probeDone (hb : s.ctrl = .busy) : FlagsCleared .enumNext (probeDone s) := by
  unfold probeDone
  dsimp only
  split
  · exact flagsCleared_respond_enumNext _ _
  · exact flagsCleared_enumRound hb

theorem flagsCleared_enumNextSeq (hb : s.ctrl = .busy) : FlagsCleared .enumNext (enumNextSeq s) := by
  unfold enumNextSeq
  split
  · exact flagsCleared_enumRound hb
  · exact flagsCleared_offer hb
  · exact flagsCleared_offer hb
  · exact flagsCleared_offer hb
  · exact flagsCleared_offer hb
  · exact flagsCleared_offer hb
  · exact flagsCleared_probeDone hb

/-- A move of a BUSY block's own command. -/
theorem flagsCleared_sequencerOf (i : Instr) (hb : s.ctrl = .busy) : FlagsCleared i (sequencerOf i s) := by
  cases i with
  | encodeAddr | enumInit => exact flagsCleared_respond _
  | rdDword bus dev fn off => exact flagsCleared_cfgReadDword hb bus dev fn off id
  | wrDword bus dev fn off value => exact flagsCleared_cfgWriteDword hb bus dev fn off value
  | rdWord bus dev fn off => exact flagsCleared_cfgReadDword hb bus dev fn off (wordOf · off)
  | rdByte bus dev fn off => exact flagsCleared_cfgReadDword hb bus dev fn off (byteOf · off)
  | enumNext => exact flagsCleared_enumNextSeq hb
  | rdBar bus dev fn index => exact flagsCleared_cfgReadDword hb bus dev fn (barOffset index) id
  | wrBar bus dev fn index value => exact flagsCleared_cfgWriteDword hb bus dev fn (barOffset index) value

end

theorem flagsCleared_start (i : Instr) (s : State) : FlagsCleared i (start (sequencerOf i) s) := by
  unfold start
  split
  · exact flagsCleared_sequencerOf i rfl
  · exact flagsCleared_of_busy rfl

/-- A command runs as BUSY from its start, whatever CTRL it is given. -/
theorem exec_ctrl_busy (i : Instr) (s : State) : exec i { s with ctrl := .busy } = exec i s := by
  rw [exec_next, exec_next]
  rfl

/-- A command that has run from any state has cleared its flags, if it has responded. -/
theorem exec_flagsCleared (i : Instr) {s t : State} (he : exec i s = .next t) : FlagsCleared i t := by
  rw [← exec_ctrl_busy] at he
  exact exec_keeps (P := FlagsCleared i) i
    (hin := fun _ _ h => h)
    (hreset := fun _ _ _ hc => nomatch hc)
    (hpass := fun _ _ h => h)
    (hissue := fun _ _ _ _ h => h)
    (hcomplete := fun _ _ _ _ hb _ _ => flagsCleared_sequencerOf i hb)
    (hstart := fun s _ => flagsCleared_start i s)
    (flagsCleared_of_busy rfl) he

/-- Settles O34: the flags are cleared wherever a command responds, and every edge keeps them so. -/
theorem assignedCommandsClearErrAndFound : Obligations.AssignedCommandsClearErrAndFound :=
  fun i _ _ he => exec_flagsCleared i he

end Sys2Proof.Machine
end

section
/-!
PROOFS. O4, ENCODE: a command that responds in its first move takes no edge, so it makes no transaction and leaves only
its response.
-/

namespace Sys2Proof.Machine

/-- A sequencer that acts first and is then no longer BUSY has run its whole command, and every edge is still to come. -/
theorem runCommand_done {seq : State → State} {s : State} (hio : s.io = .quiet)
    (hdone : (seq { s with ctrl := .busy }).ctrl ≠ .busy) :
    runCommand seq s = .next { seq { s with ctrl := .busy } with inputs := s.inputs } := by
  rw [runCommand_quiet hio, runEdges_done hdone]

/-- With no request under way, responding writes the response registers and CTRL only. -/
theorem respond_of_quiet {s : State} (hio : s.io = .quiet) (data : Dword) (found err : Bool) :
    respond data found err s = { s with rsp := ⟨data, found, err⟩, ctrl := .resp } := by
  rw [respond, ← hio]

/-- R101: ENCODE responds in its first move. -/
theorem exec_encodeAddr {s : State} (hio : s.io = .quiet) (bus dev fn off : Byte) :
    exec (.encodeAddr bus dev fn off) s = .next (respond (cfgAddress bus dev fn off) false false s) := by
  rw [exec_eq_runCommand, runCommand_done hio (by simp [sequencerOf])]
  rfl

/-- R84: opcode 0x1 is ENCODE. -/
theorem decode_of_op_encode {c : Command} (hop : c.op = 0x1) :
    c.decode = .ok (.encodeAddr c.bus c.dev c.fn c.arg) := by
  simp [Command.decode, hop]

/-- Settles O4: the command is its one response, from a state with no request under way; the worked values of R101 are
computed. -/
theorem encodeAnswersTheAddress : Obligations.EncodeAnswersTheAddress := by
  refine ⟨fun _ => decode_of_op_encode, fun bus dev fn off s hio => ?_, by decide⟩
  rw [exec_encodeAddr hio, respond_of_quiet hio]

end Sys2Proof.Machine
end

section
/-!
PROOFS. The config accessor, O5 to O8: a command of two transactions is its address write, its data transaction and one
response, whatever waits the edges hold. That is said once, for reads and for writes; each command then adds its opcode
and the part of the dword it answers.
-/

namespace Sys2Proof.Machine

/-! ### A completed access -/

/-- R59: a data-port transaction targets what the address latch holds. -/
theorem txnOf_of_dataPort {req : IoReq} (hreq : req.port = Config.dataPort) (latch : Dword) (ending : TxnEnd) :
    txnOf req latch ending = ⟨req, some latch, ending⟩ := by
  simp [txnOf, hreq]

/-- R110 and R111: a sequencer that makes the address write, then a data-port request `req`, and then responds leaves
exactly that. -/
theorem runCommand_access {seq : State → State} {s : State} {bus dev fn off : Byte} {req : IoReq}
    {result : Dword → Dword} {x v : Dword} {due : Nat} {rest : List Pins}
    (hs : Fresh s) (hserved : served 2 s.lateDue s.inputs = some ([x, v], due, rest))
    (hreq : req.port = Config.dataPort)
    (h0 : ∀ t : State, t.temps.txnIndex = 0 → seq t = offer (addrWrite bus dev fn off) t)
    (h1 : ∀ t : State, t.temps.txnIndex = 1 → seq t = offer req t)
    (h2 : ∀ t : State, t.temps.txnIndex = 2 → seq t = respond (result t.temps.lastRead) false false t) :
    ∃ t, runCommand seq s = .next t ∧
      Answered s t ⟨result (req.lastRead v s.temps.lastRead), false, false⟩
        [⟨.write Config.addrPort (cfgAddress bus dev fn off), none, .wrote⟩,
          ⟨req, some (cfgAddress bus dev fn off), req.ending v⟩] rest ∧ EnumKept s t := by
  obtain ⟨_, t1, t2, first, second, hrun⟩ := runCommand_two hs hserved h0 h1
  have latched : t1.responder.latch = cfgAddress bus dev fn off := first.latch _ rfl
  have index : t2.temps.txnIndex = 2 := by simp [second.temps, first.temps, hs.2]
  have lastRead : t2.temps.lastRead = req.lastRead v s.temps.lastRead := by
    simp [second.temps, first.temps, addrWrite, IoReq.lastRead]
  rw [h2 t2 index, lastRead, runEdges_done (by simp)] at hrun
  refine ⟨_, hrun, ⟨rfl, rfl, rfl, ?history, ?cmd, rfl⟩, ⟨?pos, ?hdr⟩⟩
  case history =>
    rw [respond_responder, second.history, offer_responder, latched, first.history, txnOf_of_dataPort hreq,
      List.append_assoc]
    rfl
  case cmd => simp [second.cmd, first.cmd]
  case pos => simp [second.pos, first.pos]
  case hdr => simp [second.hdr, first.hdr]

section

variable {s : State} {x v : Dword} {due : Nat} {rest : List Pins}

/-- R110: a dword read answers what its command takes from the dword that came back. -/
theorem runCommand_cfgReadDword (bus dev fn off : Byte) (result : Dword → Dword) (hs : Fresh s)
    (hserved : served 2 s.lateDue s.inputs = some ([x, v], due, rest)) :
    ∃ t, runCommand (cfgReadDword bus dev fn off fun v => respond (result v) false false) s = .next t ∧
      Answered s t ⟨result v, false, false⟩ (readPair (cfgAddress bus dev fn off) v) rest ∧ EnumKept s t :=
  runCommand_access (req := dataRead) hs hserved rfl
    (fun t ht => by simp [cfgReadDword, ht])
    (fun t ht => by simp [cfgReadDword, ht])
    (fun t ht => by simp [cfgReadDword, ht])

/-- R111: a dword write answers 0. -/
theorem runCommand_cfgWriteDword (bus dev fn off : Byte) (value : Dword) (hs : Fresh s)
    (hserved : served 2 s.lateDue s.inputs = some ([x, v], due, rest)) :
    ∃ t, runCommand (cfgWriteDword bus dev fn off value (respond 0 false false)) s = .next t ∧
      Answered s t ⟨0, false, false⟩ (writePair (cfgAddress bus dev fn off) value) rest ∧ EnumKept s t :=
  runCommand_access (req := dataWrite value) (result := fun _ => 0) hs hserved rfl
    (fun t ht => by simp [cfgWriteDword, ht])
    (fun t ht => by simp [cfgWriteDword, ht])
    (fun t ht => by simp [cfgWriteDword, ht])

end

/-! ### The part of the dword a read answers -/

/-- R114: bit 1 of the offset alone selects the half. -/
theorem wordOf_eq_half (v : Dword) (off : Byte) :
    wordOf v off =
      if off.getLsbD 1 then (v.extractLsb' 16 16).setWidth 32 else (v.extractLsb' 0 16).setWidth 32 := by
  have bit : off &&& 0x2#8 = if off.getLsbD 1 then 0x2#8 else 0#8 := BitVec.and_twoPow off 1
  rw [wordOf, bit, BitVec.setWidth_ushiftRight_eq_extractLsb]
  split <;> rfl

/-- R115: `off & 3` is the byte's number in the dword. -/
theorem byteOf_eq_byte (v : Dword) (off : Byte) :
    byteOf v off = (v.extractLsb' (8 * (off.toNat % 4)) 8).setWidth 32 := by
  have number : (off &&& 0x3#8).toNat = off.toNat % 4 := Nat.and_two_pow_sub_one_eq_mod off.toNat 2
  rw [byteOf, number, BitVec.setWidth_ushiftRight_eq_extractLsb]

/-! ### The opcodes of R84 -/

section

variable {c : Command}

theorem decode_of_op_rdDword (hop : c.op = 0x2) : c.decode = .ok (.rdDword c.bus c.dev c.fn c.arg) := by
  simp [Command.decode, hop]

theorem decode_of_op_wrDword (hop : c.op = 0x3) : c.decode = .ok (.wrDword c.bus c.dev c.fn c.arg c.wdata) := by
  simp [Command.decode, hop]

theorem decode_of_op_rdWord (hop : c.op = 0x4) : c.decode = .ok (.rdWord c.bus c.dev c.fn c.arg) := by
  simp [Command.decode, hop]

theorem decode_of_op_rdByte (hop : c.op = 0x5) : c.decode = .ok (.rdByte c.bus c.dev c.fn c.arg) := by
  simp [Command.decode, hop]

end

/-! ### The four commands -/

/-- Settles O5: RD_DWORD is the dword read that answers the whole dword. -/
theorem rdDwordAnswersTheDword : Obligations.RdDwordAnswersTheDword :=
  ⟨fun _ => decode_of_op_rdDword, fun bus dev fn off _ _ _ _ _ => runCommand_cfgReadDword bus dev fn off id⟩

/-- Settles O6: WR_DWORD is the dword write. -/
theorem wrDwordWritesTheDword : Obligations.WrDwordWritesTheDword :=
  ⟨fun _ => decode_of_op_wrDword, fun bus dev fn off value _ _ _ _ _ =>
    runCommand_cfgWriteDword bus dev fn off value⟩

/-- Settles O7: RD_WORD is the dword read that answers `wordOf`, the half that bit 1 selects. -/
theorem rdWordAnswersTheSelectedHalf : Obligations.RdWordAnswersTheSelectedHalf := by
  refine ⟨fun _ => decode_of_op_rdWord, fun bus dev fn off s x v due rest hs hserved => ?_⟩
  rw [← wordOf_eq_half]
  exact runCommand_cfgReadDword bus dev fn off (wordOf · off) hs hserved

/-- Settles O8: RD_BYTE is the dword read that answers `byteOf`, the byte that `off & 3` numbers. -/
theorem rdByteAnswersTheSelectedByte : Obligations.RdByteAnswersTheSelectedByte := by
  refine ⟨fun _ => decode_of_op_rdByte, fun bus dev fn off s x v due rest hs hserved => ?_⟩
  rw [← byteOf_eq_byte]
  exact runCommand_cfgReadDword bus dev fn off (byteOf · off) hs hserved

end Sys2Proof.Machine
end

section
/-!
PROOFS. The enumerator, O15, O17 and O18: ENUM_INIT responds in its first move; `advance` has four cases, each an
equation; and a round of ENUM_NEXT is the advance, then three configuration reads of one slot, then the end of the
probe. The three reads are one lemma, used three times.
-/

namespace Sys2Proof.Machine

/-! ### ENUM_INIT -/

/-- What ENUM_INIT leaves of `s` (R144), its response included. -/
def initState (s : State) : State :=
  { s with pos := ⟨256, 0, 0⟩, hdr := { s.hdr with vendor := 0xFFFF }, rsp := ⟨0, false, false⟩, ctrl := .resp }

/-- R144: ENUM_INIT responds in its first move. -/
theorem exec_enumInit {s : State} (hio : s.io = .quiet) : exec .enumInit s = .next (initState s) := by
  rw [exec_eq_runCommand, runCommand_done hio (by simp [sequencerOf])]
  simp [sequencerOf, respond, initState, hio, Config.sentinelBus, Config.sentinelVendor]

/-- R84: opcode 0x6 is ENUM_INIT. -/
theorem decode_of_op_enumInit {c : Command} (hop : c.op = 0x6) : c.decode = .ok .enumInit := by
  simp [Command.decode, hop]

/-- Settles O15: the Init state has no request under way either, so a second ENUM_INIT finds nothing to change. -/
theorem enumInitSetsTheInitState : Obligations.EnumInitSetsTheInitState := by
  refine ⟨fun _ => decode_of_op_enumInit, fun _ => exec_enumInit, fun s t hio he => ?_⟩
  obtain rfl : initState s = t := by simpa [exec_enumInit hio] using he
  exact exec_enumInit (s := initState s) hio

/-! ### The four cases of `advance` -/

section

variable {mf : Bool} {p : Position}

/-- R142: from the end sentinel, back to the first slot. -/
theorem advance_of_atSentinel (mf : Bool) (h : atSentinel p = true) : advance mf p = ⟨0, 0, 0⟩ := by
  simp [advance, h]

/-- R142: the next function of a multifunction device. -/
theorem advance_function (hbus : atSentinel p = false) (hfn : p.fn ≠ 7) :
    advance true p = ⟨p.bus, p.dev, p.fn + 1⟩ := by
  have carry : p.fn.setWidth 4 + 1#4 ≠ 8#4 := by bv_omega
  have wrap : (p.fn.setWidth 4 + 1#4).setWidth 3 = p.fn + 1 := by bv_omega
  simp [advance, hbus, carry, wrap]

/-- R142: the test that ends a device is that there is no next function to probe. -/
theorem no_next_function (h : mf = false ∨ p.fn = 7) : (p.fn.setWidth 4 + 1 == 8 || !mf) = true := by
  rcases h with h | h <;> simp [h]

/-- R142: function 0 of the next device. -/
theorem advance_device (hbus : atSentinel p = false) (hfn : mf = false ∨ p.fn = 7) (hdev : p.dev ≠ 31) :
    advance mf p = ⟨p.bus, p.dev + 1, 0⟩ := by
  have carry : p.dev.setWidth 6 + 1#6 ≠ 32#6 := by bv_omega
  have wrap : (p.dev.setWidth 6 + 1#6).setWidth 5 = p.dev + 1 := by bv_omega
  simp only [advance, hbus, no_next_function hfn]
  simp [carry, wrap]

/-- R142: the first slot of the next bus. -/
theorem advance_bus (hbus : atSentinel p = false) (hfn : mf = false ∨ p.fn = 7) (hdev : p.dev = 31) :
    advance mf p = ⟨p.bus + 1, 0, 0⟩ := by
  simp only [advance, hbus, no_next_function hfn]
  simp [hdev]

end

/-- Settles O17: each case is its equation, and no sum in it wraps. -/
theorem advanceTakesOneStep : Obligations.AdvanceTakesOneStep := by
  intro mf p
  refine ⟨fun hbus => ?_, fun hbus hmf hfn => ?_, fun hbus hfn hdev => ?_, fun hbus hfn hdev => ?_⟩
  · exact advance_of_atSentinel mf ((atSentinel_iff p).mpr hbus)
  all_goals have hpass := (not_atSentinel_iff p).mpr hbus
  · rw [hmf, advance_function hpass (by bv_omega)]
    exact ⟨rfl, rfl, by bv_omega⟩
  · rw [advance_device hpass hfn (by bv_omega)]
    exact ⟨rfl, by bv_omega, rfl⟩
  · rw [advance_bus hpass hfn hdev]
    exact ⟨by bv_omega, rfl, rfl⟩

/-! ### ENUM_NEXT's sequencer, transaction by transaction -/

section

variable {s : State}

theorem enumNextSeq_first (h : s.temps.txnIndex = 0) : enumNextSeq s = enumRound s := by
  simp [enumNextSeq, h]

/-- R143: the second transaction of each of the three reads. -/
theorem enumNextSeq_dataRead (h : s.temps.txnIndex = 1 ∨ s.temps.txnIndex = 3 ∨ s.temps.txnIndex = 5) :
    enumNextSeq s = offer dataRead s := by
  rcases h with h | h | h <;> simp [enumNextSeq, h]

theorem enumNextSeq_third (h : s.temps.txnIndex = 2) :
    enumNextSeq s = offer (probeWrite s.pos Config.headerOffset2)
      { s with temps := { s.temps with probeD0 := s.temps.lastRead } } := by
  simp [enumNextSeq, h]

theorem enumNextSeq_fifth (h : s.temps.txnIndex = 4) :
    enumNextSeq s = offer (probeWrite s.pos Config.headerOffset3)
      { s with temps := { s.temps with probeD2 := s.temps.lastRead } } := by
  simp [enumNextSeq, h]

theorem enumNextSeq_last (h : s.temps.txnIndex = 6) :
    enumNextSeq s = probeDone { s with temps := { s.temps with probeD3 := s.temps.lastRead } } := by
  simp [enumNextSeq, h]

/-- The header that a probe's three dwords hold (R143). -/
def probedHeader (s : State) : Header :=
  headerOf s.temps.probeD0 s.temps.probeD2 s.temps.probeD3

/-- R145: a present function is yielded. -/
theorem probeDone_present (h : present (probedHeader s) = true) :
    probeDone s = respond 0 true false { s with hdr := probedHeader s } := by
  rw [probedHeader] at h
  simp [probeDone, probedHeader, h]

/-- R145: an absent one sends the loop round again. -/
theorem probeDone_absent (h : present (probedHeader s) = false) :
    probeDone s = enumRound { s with hdr := probedHeader s } := by
  rw [probedHeader] at h
  simp [probeDone, probedHeader, h]

end

/-! ### Transactions of a command under way -/

/-- `t` is where a command under way in `s` has completed the transactions `txns`: it is BUSY, with no request under
way, and the registers are as they were. -/
structure Progressed (s : State) (txns : List IoTxn) (t : State) : Prop where
  pos : t.pos = s.pos
  hdr : t.hdr = s.hdr
  ctrl : t.ctrl = .busy
  cmd : t.cmd = s.cmd
  rsp : t.rsp = s.rsp
  io : t.io = .quiet
  history : t.responder.history = s.responder.history ++ txns

theorem Progressed.trans {s t u : State} {xs ys : List IoTxn} (hx : Progressed s xs t) (hy : Progressed t ys u) :
    Progressed s (xs ++ ys) u where
  pos := hy.pos.trans hx.pos
  hdr := hy.hdr.trans hx.hdr
  ctrl := hy.ctrl
  cmd := hy.cmd.trans hx.cmd
  rsp := hy.rsp.trans hx.rsp
  io := hy.io
  history := by rw [hy.history, hx.history, List.append_assoc]

/-- `Progressed` says nothing of the temporaries, so a sequencer may store a dword it read. -/
theorem Progressed.with_temps {s t : State} {txns : List IoTxn} (h : Progressed s txns t) (temps : Temps) :
    Progressed s txns { t with temps } :=
  ⟨h.pos, h.hdr, h.ctrl, h.cmd, h.rsp, h.io, h.history⟩

/-- One completed transaction is such a progress, from before its request was offered. -/
theorem AfterTransaction.progressed {s t : State} {temps : Temps} {req : IoReq} {v : Dword} {due : Nat}
    (h : AfterTransaction (offer req { s with temps }) req v due t) :
    Progressed s [txnOf req s.responder.latch (req.ending v)] t :=
  ⟨h.pos, h.hdr, h.ctrl, h.cmd, h.rsp, h.io, h.history⟩

section

variable {s : State} {temps : Temps} {ps rest : List Pins} {n due : Nat} {vs : List Dword}

/-- R143: one configuration read of a probe, whose address write is offered, completes on edges that serve two
transactions, and the sequencer goes on with the dword read. -/
theorem runEdges_probeRead (off : Byte) {x v : Dword} (hb : s.ctrl = .busy)
    (hindex : temps.txnIndex = 0 ∨ temps.txnIndex = 2 ∨ temps.txnIndex = 4)
    (hserved : served (n + 2) s.lateDue ps = some (x :: v :: vs, due, rest)) :
    ∃ qs t, Progressed s (readPair (probeAddress s.pos off) v) t ∧
      t.temps = { temps with txnIndex := temps.txnIndex + 2, lastRead := v } ∧
      served n t.lateDue qs = some (vs, due, rest) ∧
      runEdges enumNextSeq ps (offer (probeWrite s.pos off) { s with temps }) =
        runEdges enumNextSeq qs (enumNextSeq t) := by
  obtain ⟨d₁, qs₁, hwrite, hserved⟩ := served_succ hserved
  obtain ⟨d₂, qs₂, hdata, hserved⟩ := served_succ hserved
  obtain ⟨t₁, first, run₁⟩ := runEdges_served (seq := enumNextSeq) (req := probeWrite s.pos off) ps false
    (offer (probeWrite s.pos off) { s with temps }) hb rfl hwrite
  rw [← first.lateDue] at hdata
  obtain ⟨t₂, second, run₂⟩ := runEdges_served (seq := enumNextSeq) (req := dataRead) qs₁ false (offer dataRead t₁)
    first.ctrl rfl hdata
  rw [← second.lateDue] at hserved
  refine ⟨qs₂, t₂, ?txns, ?temps, hserved, ?run⟩
  case txns =>
    have latched : t₁.responder.latch = probeAddress s.pos off := first.latch _ rfl
    have progress := first.progressed.trans (AfterTransaction.progressed (temps := t₁.temps) second)
    rwa [latched] at progress
  case temps =>
    rw [second.temps, offer_temps, first.temps]
    rfl
  case run =>
    have index : t₁.temps.txnIndex = temps.txnIndex + 1 := by rw [first.temps, offer_temps]
    rw [run₁, enumNextSeq_dataRead (by omega), run₂]

/-- R143: a probe whose first address write is offered makes its six transactions at the position, on edges that serve
them, and ends with the header that its three dwords hold. -/
theorem runEdges_probe {x0 d0 x2 d2 x3 d3 : Dword} (hb : s.ctrl = .busy) (hindex : temps.txnIndex = 0)
    (hserved : served (n + 6) s.lateDue ps = some (x0 :: d0 :: x2 :: d2 :: x3 :: d3 :: vs, due, rest)) :
    ∃ qs t, Progressed s (probeTxns s.pos d0 d2 d3) t ∧ probedHeader t = headerOf d0 d2 d3 ∧
      served n t.lateDue qs = some (vs, due, rest) ∧
      runEdges enumNextSeq ps (offer (probeWrite s.pos Config.headerOffset0) { s with temps }) =
        runEdges enumNextSeq qs (probeDone t) := by
  obtain ⟨qs₀, t₀, read₀, temps₀, hserved, run₀⟩ := runEdges_probeRead (temps := temps) Config.headerOffset0 hb
    (.inl hindex) hserved
  have index₀ : t₀.temps.txnIndex = 2 := by simp [temps₀, hindex]
  obtain ⟨qs₂, t₂, read₂, temps₂, hserved, run₂⟩ := runEdges_probeRead Config.headerOffset2
    (temps := { t₀.temps with probeD0 := t₀.temps.lastRead }) read₀.ctrl (.inr (.inl index₀)) hserved
  have index₂ : t₂.temps.txnIndex = 4 := by simp [temps₂, index₀]
  obtain ⟨qs₃, t₃, read₃, temps₃, hserved, run₃⟩ := runEdges_probeRead Config.headerOffset3
    (temps := { t₂.temps with probeD2 := t₂.temps.lastRead }) read₂.ctrl (.inr (.inr index₂)) hserved
  have index₃ : t₃.temps.txnIndex = 6 := by simp [temps₃, index₂]
  refine ⟨qs₃, { t₃ with temps := { t₃.temps with probeD3 := t₃.temps.lastRead } }, ?txns, ?dwords, hserved, ?run⟩
  case txns =>
    rw [read₂.pos] at read₃
    rw [read₀.pos] at read₂ read₃
    exact ((read₀.trans read₂).trans read₃).with_temps _
  case dwords => simp [probedHeader, temps₃, temps₂, temps₀]
  case run =>
    rw [run₀, enumNextSeq_third index₀, run₂, enumNextSeq_fifth index₂, run₃, enumNextSeq_last index₃]

end

/-! ### ENUM_NEXT -/

/-- R84: opcode 0x7 is ENUM_NEXT. -/
theorem decode_of_op_enumNext {c : Command} (hop : c.op = 0x7) : c.decode = .ok .enumNext := by
  simp [Command.decode, hop]

/-- A command that has just been accepted begins with a round of the loop. -/
theorem exec_enumNext {s : State} (hs : Fresh s) :
    exec .enumNext s = .next (runEdges enumNextSeq s.inputs (enumRound { s with ctrl := .busy })) := by
  obtain ⟨hio, hindex⟩ := hs
  have first : enumNextSeq { s with ctrl := .busy } = enumRound { s with ctrl := .busy } := enumNextSeq_first hindex
  rw [exec_eq_runCommand, runCommand_quiet hio, sequencerOf, first]

/-- R145: where the advance reaches the end sentinel, the command reports exhaustion in its first move. -/
theorem exec_enumNext_exhausted {s : State} (hs : Fresh s)
    (hend : atSentinel (advance (multifunction s.hdr) s.pos) = true) :
    exec .enumNext s = .next { s with
      pos := advance (multifunction s.hdr) s.pos, hdr := { s.hdr with vendor := 0xFFFF },
      rsp := ⟨0, false, false⟩, ctrl := .resp } := by
  rcases enumRound_cases { s with ctrl := .busy } with ⟨_, e⟩ | ⟨hslot, _⟩
  · rw [exec_enumNext hs, e, runEdges_done (by simp)]
    obtain ⟨hio, hindex⟩ := hs
    simp [respond, hio, ← hindex, Config.sentinelVendor]
  · simp [hend] at hslot

/-- R143, R145: otherwise it probes the slot that the advance reaches, and `probeDone` decides from there. -/
theorem exec_enumNext_probe {s : State} {x0 d0 x2 d2 x3 d3 : Dword} {n due : Nat} {vs : List Dword} {rest : List Pins}
    (hs : Fresh s) (hslot : atSentinel (advance (multifunction s.hdr) s.pos) = false)
    (hserved : served (n + 6) s.lateDue s.inputs = some (x0 :: d0 :: x2 :: d2 :: x3 :: d3 :: vs, due, rest)) :
    ∃ qs t, Progressed { s with pos := advance (multifunction s.hdr) s.pos, ctrl := .busy }
        (probeTxns (advance (multifunction s.hdr) s.pos) d0 d2 d3) t ∧
      probedHeader t = headerOf d0 d2 d3 ∧ served n t.lateDue qs = some (vs, due, rest) ∧
      exec .enumNext s = .next (runEdges enumNextSeq qs (probeDone t)) := by
  rcases enumRound_cases { s with ctrl := .busy } with ⟨hend, _⟩ | ⟨_, e⟩
  · simp [hslot] at hend
  · obtain ⟨qs, t, probed, dwords, hserved, run⟩ := runEdges_probe
      (s := { s with pos := advance (multifunction s.hdr) s.pos, ctrl := .busy })
      (temps := { s.temps with txnIndex := 0 }) rfl rfl hserved
    exact ⟨qs, t, probed, dwords, hserved, by rw [exec_enumNext hs, e, ← run]⟩

/-- Where the loop goes round again: transaction 0 is next, and the edges `ps` are still to come. -/
def nextRound (ps : List Pins) (s : State) : State :=
  { s with temps := { s.temps with txnIndex := 0 }, inputs := ps }

/-- A round reads neither the transaction index nor the listed edges. -/
theorem enumRound_nextRound (ps : List Pins) (s : State) :
    enumRound (nextRound ps s) = { enumRound s with inputs := ps } := by
  unfold enumRound
  dsimp only [nextRound]
  split <;> rfl

/-- R145: going round the loop again is the command begun there. -/
theorem exec_enumNext_nextRound {s : State} (hb : s.ctrl = .busy) (hio : s.io = .quiet) (ps : List Pins) :
    exec .enumNext (nextRound ps s) = .next (runEdges enumNextSeq ps (enumRound s)) := by
  have busy : { nextRound ps s with ctrl := .busy } = nextRound ps s := by rw [← hb]; rfl
  rw [exec_enumNext (s := nextRound ps s) ⟨hio, rfl⟩, busy, enumRound_nextRound]
  exact congrArg Host.Outcome.next (runEdges_inputs .enumNext ps (enumRound s) ps)

/-- No transaction takes no edge. -/
theorem served_zero {due due' : Nat} {ps rest : List Pins} (h : served 0 due ps = some ([], due', rest)) :
    due = due' ∧ ps = rest := by
  simpa [served] using h

/-- Settles O18: the round's advance ends the pass or begins a probe, and the probed header ends the command or sends
it round again. -/
theorem enumNextFollowsItsLoop : Obligations.EnumNextFollowsItsLoop := by
  refine ⟨fun _ => decode_of_op_enumNext, fun s hs => ⟨exec_enumNext_exhausted hs, ?_⟩⟩
  intro x0 d0 x2 d2 x3 d3 due rest hslot hserved
  obtain ⟨qs, t, probed, header, hserved, run⟩ := exec_enumNext_probe (n := 0) hs hslot hserved
  obtain ⟨hdue, rfl⟩ := served_zero hserved
  rw [← header]
  constructor
  · intro hpresent
    rw [probeDone_present hpresent, runEdges_done (by simp)] at run
    exact ⟨_, run, ⟨rfl, rfl, rfl, probed.history, probed.cmd, rfl⟩, probed.pos, rfl⟩
  · intro habsent
    rw [probeDone_absent habsent] at run
    have again := exec_enumNext_nextRound (s := { t with hdr := probedHeader t }) probed.ctrl probed.io qs
    exact ⟨_, run.trans again.symm, ⟨probed.io, rfl⟩, probed.pos, rfl, probed.history, probed.cmd, probed.rsp, rfl,
      hdue⟩

end Sys2Proof.Machine
end

section
/-!
PROOFS. The BAR accessor, O9 to O11: a BAR command is the dword access at `bar_offset(index)`, so all that is new is
what that offset is.
-/

namespace Sys2Proof.Machine

/-- R180: the offset is the 8-bit value of `0x10 + 4 * index`. -/
theorem barOffset_eq_ofNat (index : Byte) : barOffset index = BitVec.ofNat 8 (0x10 + 4 * index.toNat) :=
  BitVec.eq_of_toNat_eq (by rw [barOffset_toNat, BitVec.toNat_ofNat])

/-- R180: 64 BARs of 4 bytes are the whole space of 256, so the offset repeats with period 64. -/
theorem barOffset_mod_sixtyFour (index : Byte) : barOffset (BitVec.ofNat 8 (index.toNat % 64)) = barOffset index := by
  apply BitVec.eq_of_toNat_eq
  rw [barOffset_toNat, barOffset_toNat, BitVec.toNat_ofNat]
  omega

/-- Settles O11: the offset's value gives all three parts, since 4 divides 0x10, 4 and 256. -/
theorem barOffsetIsTheEightBitSum : Obligations.BarOffsetIsTheEightBitSum := by
  intro index
  have sum := barOffset_toNat index
  exact ⟨sum, by omega, (barOffset_mod_sixtyFour index).symm⟩

section

variable {c : Command}

/-- R84: opcode 0x8 is RD_BAR. -/
theorem decode_of_op_rdBar (hop : c.op = 0x8) : c.decode = .ok (.rdBar c.bus c.dev c.fn c.arg) := by
  simp [Command.decode, hop]

/-- R84: opcode 0x9 is WR_BAR. -/
theorem decode_of_op_wrBar (hop : c.op = 0x9) : c.decode = .ok (.wrBar c.bus c.dev c.fn c.arg c.wdata) := by
  simp [Command.decode, hop]

end

/-- Settles O9: RD_BAR is the dword read at the BAR's offset. -/
theorem rdBarAnswersTheBar : Obligations.RdBarAnswersTheBar := by
  refine ⟨fun _ => decode_of_op_rdBar, fun bus dev fn index s x v due rest hs hserved => ?_⟩
  rw [exec_eq_runCommand, sequencerOf, ← barOffset_eq_ofNat]
  exact runCommand_cfgReadDword bus dev fn (barOffset index) id hs hserved

/-- Settles O10: WR_BAR is the dword write at the BAR's offset. -/
theorem wrBarWritesTheBar : Obligations.WrBarWritesTheBar := by
  refine ⟨fun _ => decode_of_op_wrBar, fun bus dev fn index value s x y due rest hs hserved => ?_⟩
  rw [exec_eq_runCommand, sequencerOf, ← barOffset_eq_ofNat]
  exact runCommand_cfgWriteDword bus dev fn (barOffset index) value hs hserved

end Sys2Proof.Machine
end

section
/-!
PROOFS. O43, a transaction that the edges never serve: the block waits in BUSY with its request under way. That is
said once for a request, wherever it stands; then for a sequencer that offers a request whenever a transaction
completes; then for ENUM_NEXT, whose absent probes send it round its loop first.
-/

namespace Sys2Proof.Machine

/-! ### A request that is never served -/

/-- The request under way was accepted by the responder. -/
def IoPhase.issued : IoPhase → Bool
  | .outstanding _ => true
  | _ => false

/-- `t` is where a command that was BUSY in `s` still has its request under way, offered or issued: the responder and
the registers listed are unchanged. -/
structure Stalled (s t : State) : Prop where
  pos : t.pos = s.pos
  hdr : t.hdr = s.hdr
  ctrl : t.ctrl = .busy
  cmd : t.cmd = s.cmd
  rsp : t.rsp = s.rsp
  responder : t.responder = s.responder
  io : ioActive t.io = true

theorem Stalled.trans {s t u : State} (hst : Stalled s t) (htu : Stalled t u) : Stalled s u where
  pos := htu.pos.trans hst.pos
  hdr := htu.hdr.trans hst.hdr
  ctrl := htu.ctrl
  cmd := htu.cmd.trans hst.cmd
  rsp := htu.rsp.trans hst.rsp
  responder := htu.responder.trans hst.responder
  io := htu.io

/-- One edge of edges that do not serve the request: it stays under way, and the later edges do not serve it either. -/
theorem busyEdge_stalled {seq : State → State} {p : Pins} {ps : List Pins} {s : State} (hr : p.rst = false)
    (hb : s.ctrl = .busy) (hio : ioActive s.io = true)
    (hnone : servedOne s.io.issued s.lateDue (p :: ps) = none) :
    Stalled s (busyEdge seq p s) ∧
      servedOne (busyEdge seq p s).io.issued (busyEdge seq p s).lateDue ps = none := by
  rcases busyEdge_cases (seq := seq) p s with
    ⟨reset, _⟩ | ⟨_, e, wait⟩ | ⟨req, _, ho, ready, e⟩ | ⟨req, _, ho, done, _⟩
  · simp [hr] at reset
  · rw [e]
    refine ⟨⟨rfl, rfl, hb, rfl, rfl, rfl, hio⟩, ?_⟩
    rcases wait with ho | ⟨req, ho, wait⟩ | ⟨req, ho, wait⟩
    · simp [ho, ioActive] at hio
    · simpa [servedOne, IoPhase.issued, hr, ho, wait] using hnone
    · simpa [servedOne, IoPhase.issued, hr, ho, wait] using hnone
  · rw [e]
    refine ⟨⟨rfl, rfl, hb, rfl, rfl, rfl, rfl⟩, ?_⟩
    simpa [servedOne, IoPhase.issued, hr, ho, ready] using hnone
  · simp [servedOne, IoPhase.issued, hr, ho, done] at hnone

/-- R212: a request under way that the edges do not serve is waited for over all of them. -/
theorem runEdges_stalled {seq : State → State} : ∀ (ps : List Pins) (s : State), s.ctrl = .busy →
    ioActive s.io = true → noReset ps → servedOne s.io.issued s.lateDue ps = none → Stalled s (runEdges seq ps s)
  | [], _, hb, hio, _, _ => ⟨rfl, rfl, hb, rfl, rfl, rfl, hio⟩
  | p :: ps, s, hb, hio, hr, hnone => by
    obtain ⟨hp, hps⟩ := List.forall_mem_cons.mp hr
    obtain ⟨edge, later⟩ := busyEdge_stalled (seq := seq) hp hb hio hnone
    rw [runEdges_cons_busy hb]
    exact edge.trans (runEdges_stalled ps _ edge.ctrl edge.io hps later)

/-! ### Edges that serve some transactions and not the next -/

/-- The edges serve transactions with exactly these answers, and then, with no reset, not another one: the premises of
O43's last part, one transaction at a time. -/
def ServesOnly : List Dword → Nat → List Pins → Prop
  | [], due, ps => noReset ps ∧ servedOne false due ps = none
  | v :: vs, due, ps => ∃ due' qs, servedOne false due ps = some (v, due', qs) ∧ ServesOnly vs due' qs

/-- The edges after a transaction are among those before it. -/
theorem servedOne_noReset {v : Dword} {due' : Nat} {qs : List Pins} : ∀ (ps : List Pins) (issued : Bool) (due : Nat),
    noReset ps → servedOne issued due ps = some (v, due', qs) → noReset qs
  | [], _, _, _, h => by simp [servedOne] at h
  | p :: ps, issued, due, hr, h => by
    obtain ⟨hp, hps⟩ := List.forall_mem_cons.mp hr
    simp only [servedOne, hp, Bool.false_eq_true, if_false] at h
    split at h
    · split at h
      · cases h
        exact hps
      · exact servedOne_noReset ps _ _ hps h
    · exact servedOne_noReset ps _ _ hps h

/-- After a first transaction, `n + 1` transactions are it and the `n` after it. -/
theorem served_of_servedOne {n due due' : Nat} {ps qs : List Pins} {v : Dword}
    (first : servedOne false due ps = some (v, due', qs)) :
    served (n + 1) due ps = (served n due' qs).map fun (vs, due'', rest) => (v :: vs, due'', rest) := by
  simp only [served, first]
  cases served n due' qs <;> rfl

theorem servesOnly_of_served : ∀ {vs : List Dword} {due due' : Nat} {ps rest : List Pins}, noReset ps →
    served vs.length due ps = some (vs, due', rest) → served (vs.length + 1) due ps = none → ServesOnly vs due ps
  | [], due, _, ps, _, hr, _, hnone => by
    refine ⟨hr, ?_⟩
    cases h : servedOne false due ps with
    | none => rfl
    | some x => simp [served, h] at hnone
  | v :: vs, _, _, ps, _, hr, hserved, hnone => by
    obtain ⟨d, qs, first, later⟩ := served_succ hserved
    refine ⟨d, qs, first, servesOnly_of_served (servedOne_noReset ps _ _ hr first) later ?_⟩
    rw [List.length_cons, served_of_servedOne first] at hnone
    exact Option.map_eq_none_iff.mp hnone

/-- The six transactions of a probe, and those after it. -/
theorem ServesOnly.probe {x0 d0 x2 d2 x3 d3 : Dword} {vs : List Dword} {due : Nat} {ps : List Pins}
    (h : ServesOnly (x0 :: d0 :: x2 :: d2 :: x3 :: d3 :: vs) due ps) :
    ∃ due' qs, served 6 due ps = some ([x0, d0, x2, d2, x3, d3], due', qs) ∧ ServesOnly vs due' qs := by
  obtain ⟨_, _, s0, _, _, s1, _, _, s2, _, _, s3, _, _, s4, due', qs, s5, later⟩ := h
  exact ⟨due', qs, by simp [served, s0, s1, s2, s3, s4, s5], later⟩

/-! ### A command that waits for its next transaction -/

/-- The transaction completed with the answer `v`, which is a read's value and which a write ignores (R37). -/
def EndedWith (v : Dword) (x : IoTxn) : Prop :=
  ∃ req : IoReq, x.ending = req.ending v

theorem EndedWith.completed {v : Dword} {x : IoTxn} (h : EndedWith v x) : x.completed = true := by
  obtain ⟨req, e⟩ := h
  cases req <;> simp [IoTxn.completed, e, IoReq.ending]

theorem EndedWith.got {v w : Dword} {x : IoTxn} (h : EndedWith v x) (hgot : x.ending = .got w) : v = w := by
  obtain ⟨req, e⟩ := h
  cases req <;> simp_all [IoReq.ending]

theorem endedWith_getElem? {vs : List Dword} {new : List IoTxn} (h : List.Forall₂ EndedWith vs new) :
    ∀ {n : Nat} {x : IoTxn}, new[n]? = some x → ∃ v, vs[n]? = some v ∧ EndedWith v x := by
  induction h with
  | nil => simp
  | @cons v x vs new hv _ ih =>
    intro n y hy
    cases n with
    | zero =>
      obtain rfl : x = y := by simpa using hy
      exact ⟨v, rfl, hv⟩
    | succ n => exact ih (by simpa using hy)

/-- `t` is where a command begun in `s` has made transactions with the answers `vs` and waits, BUSY, for the next. -/
structure WaitsAfter (s : State) (vs : List Dword) (t : State) : Prop where
  ctrl : t.ctrl = .busy
  cmd : t.cmd = s.cmd
  rsp : t.rsp = s.rsp
  io : ioActive t.io = true
  history : ∃ new, t.responder.history = s.responder.history ++ new ∧ List.Forall₂ EndedWith vs new

theorem Stalled.waitsAfter {s t : State} (h : Stalled s t) : WaitsAfter s [] t where
  ctrl := h.ctrl
  cmd := h.cmd
  rsp := h.rsp
  io := h.io
  history := ⟨[], by simp [h.responder], .nil⟩

/-- The transactions before some state of the command come first. -/
theorem WaitsAfter.prepend {s u t : State} {vs ws : List Dword} {txns : List IoTxn} (h : WaitsAfter u vs t)
    (hcmd : u.cmd = s.cmd) (hrsp : u.rsp = s.rsp) (hhistory : u.responder.history = s.responder.history ++ txns)
    (hended : List.Forall₂ EndedWith ws txns) : WaitsAfter s (ws ++ vs) t where
  ctrl := h.ctrl
  cmd := h.cmd.trans hcmd
  rsp := h.rsp.trans hrsp
  io := h.io
  history := by
    obtain ⟨new, happend, hnew⟩ := h.history
    exact ⟨txns ++ new, by rw [happend, hhistory, List.append_assoc], List.rel_append hended hnew⟩

/-- The sequencer answers each completed transaction before the `k`-th by offering a request, and changes only
temporaries with it. -/
def OffersBefore (k : Nat) (seq : State → State) : Prop :=
  ∀ t : State, 0 < t.temps.txnIndex → t.temps.txnIndex < k →
    ∃ req temps, seq t = offer req { t with temps } ∧ temps.txnIndex = t.temps.txnIndex

theorem runEdges_waitsAfter {k : Nat} {seq : State → State} (hseq : OffersBefore k seq) :
    ∀ (vs : List Dword) (ps : List Pins) (s : State) (temps : Temps) (req : IoReq), s.ctrl = .busy →
      temps.txnIndex + vs.length < k → ServesOnly vs s.lateDue ps →
        WaitsAfter s vs (runEdges seq ps (offer req { s with temps }))
  | [], ps, s, temps, req, hb, _, ⟨hr, hnone⟩ => by
    have stalled := runEdges_stalled (seq := seq) ps (offer req { s with temps }) hb rfl hr hnone
    exact { stalled.waitsAfter with }
  | v :: vs, ps, s, temps, req, hb, hk, ⟨_, qs, first, later⟩ => by
    obtain ⟨t, after, run⟩ := runEdges_served (seq := seq) ps false (offer req { s with temps }) hb rfl first
    have index : t.temps.txnIndex = temps.txnIndex + 1 := by rw [after.temps, offer_temps]
    rw [List.length_cons] at hk
    obtain ⟨req', temps', next, index'⟩ := hseq t (by omega) (by omega)
    rw [← after.lateDue] at later
    have waits := runEdges_waitsAfter hseq vs qs t temps' req' after.ctrl (by omega) later
    rw [run, next]
    exact waits.prepend (s := s) after.cmd after.rsp after.history (.cons ⟨req, rfl⟩ .nil)

/-! ### The requests a command offers -/

/-- The sequencer's move offers transaction 0. -/
def OffersFirst (seq : State → State) (s : State) : Prop :=
  ∃ req pos temps, seq s = offer req { s with pos, temps } ∧ temps.txnIndex = 0

/-- The number of transactions that a command makes whatever the answers are, once it needs one: ENUM_NEXT decides after
a whole probe. -/
def uninterrupted : Instr → Nat
  | .enumNext => 6
  | _ => 2

section

variable {s : State} (hindex : s.temps.txnIndex = 0)

include hindex

theorem cfgReadDword_offers (bus dev fn off : Byte) (result : Dword → Dword) :
    OffersFirst (cfgReadDword bus dev fn off fun v => respond (result v) false false) s ∧
      OffersBefore 2 (cfgReadDword bus dev fn off fun v => respond (result v) false false) := by
  refine ⟨⟨addrWrite bus dev fn off, s.pos, s.temps, by simp [cfgReadDword, hindex], hindex⟩, fun t hpos hlt => ?_⟩
  have index : t.temps.txnIndex = 1 := by omega
  exact ⟨dataRead, t.temps, by simp [cfgReadDword, index], rfl⟩

theorem cfgWriteDword_offers (bus dev fn off : Byte) (value : Dword) (k : State → State) :
    OffersFirst (cfgWriteDword bus dev fn off value k) s ∧ OffersBefore 2 (cfgWriteDword bus dev fn off value k) := by
  refine ⟨⟨addrWrite bus dev fn off, s.pos, s.temps, by simp [cfgWriteDword, hindex], hindex⟩, fun t hpos hlt => ?_⟩
  have index : t.temps.txnIndex = 1 := by omega
  exact ⟨dataWrite value, t.temps, by simp [cfgWriteDword, index], rfl⟩

theorem enumNextSeq_offersFirst (hslot : atSentinel (advance (multifunction s.hdr) s.pos) = false) :
    OffersFirst enumNextSeq s := by
  rcases enumRound_cases s with ⟨hend, _⟩ | ⟨_, e⟩
  · simp [hslot] at hend
  · exact ⟨_, _, _, (enumNextSeq_first hindex).trans e, rfl⟩

end

theorem enumNextSeq_offersBefore : OffersBefore 6 enumNextSeq := by
  intro t hpos hlt
  obtain index | index | index : (t.temps.txnIndex = 1 ∨ t.temps.txnIndex = 3 ∨ t.temps.txnIndex = 5) ∨
    t.temps.txnIndex = 2 ∨ t.temps.txnIndex = 4 := by omega
  · exact ⟨_, t.temps, enumNextSeq_dataRead index, rfl⟩
  · exact ⟨_, _, enumNextSeq_third index, rfl⟩
  · exact ⟨_, _, enumNextSeq_fifth index, rfl⟩

/-- A command that needs a transaction offers it in its first move, and then one after another. -/
theorem sequencerOf_offers {i : Instr} {s : State} (hindex : s.temps.txnIndex = 0) (hneeds : needsMore i s [] = true) :
    OffersFirst (sequencerOf i) s ∧ OffersBefore (uninterrupted i) (sequencerOf i) := by
  cases i with
  | encodeAddr | enumInit => simp [needsMore] at hneeds
  | rdDword bus dev fn off => exact cfgReadDword_offers hindex bus dev fn off id
  | rdWord bus dev fn off => exact cfgReadDword_offers hindex bus dev fn off (wordOf · off)
  | rdByte bus dev fn off => exact cfgReadDword_offers hindex bus dev fn off (byteOf · off)
  | rdBar bus dev fn index => exact cfgReadDword_offers hindex bus dev fn (barOffset index) id
  | wrDword bus dev fn off value => exact cfgWriteDword_offers hindex bus dev fn off value _
  | wrBar bus dev fn index value => exact cfgWriteDword_offers hindex bus dev fn (barOffset index) value _
  | enumNext =>
    exact ⟨enumNextSeq_offersFirst hindex (by simpa [needsMore, enumNeedsMore] using hneeds), enumNextSeq_offersBefore⟩

/-- The run of a command just accepted that needs a transaction begins with its offer. -/
theorem exec_offers {i : Instr} {s : State} (hs : Fresh s) (hneeds : needsMore i s [] = true) :
    ∃ req pos temps, temps.txnIndex = 0 ∧
      exec i s = .next (runEdges (sequencerOf i) s.inputs (offer req { s with ctrl := .busy, pos, temps })) := by
  obtain ⟨hio, hindex⟩ := hs
  obtain ⟨⟨req, pos, temps, first, index⟩, -⟩ :=
    sequencerOf_offers (i := i) (s := { s with ctrl := .busy }) hindex hneeds
  exact ⟨req, pos, temps, index, by rw [exec_eq_runCommand, runCommand_quiet hio, first]⟩

/-- R212, for a command just accepted whose first transaction the edges do not serve. -/
theorem exec_stalled {i : Instr} {s : State} (hs : Fresh s) (hneeds : needsMore i s [] = true)
    (hr : noReset s.inputs) (hnone : servedOne false s.lateDue s.inputs = none) :
    ∃ pos t, exec i s = .next t ∧ Stalled { s with pos } t := by
  obtain ⟨req, pos, temps, -, run⟩ := exec_offers hs hneeds
  have stalled := runEdges_stalled (seq := sequencerOf i) s.inputs (offer req { s with ctrl := .busy, pos, temps })
    rfl rfl hr hnone
  exact ⟨pos, _, run, { stalled with }⟩

/-- R212, for a command just accepted and as many transactions as it makes uninterrupted. -/
theorem exec_waitsAfter {i : Instr} {s : State} {vs : List Dword} (hs : Fresh s) (hneeds : needsMore i s [] = true)
    (hlt : vs.length < uninterrupted i) (hserves : ServesOnly vs s.lateDue s.inputs) :
    ∃ t, exec i s = .next t ∧ WaitsAfter s vs t := by
  obtain ⟨-, offers⟩ := sequencerOf_offers hs.2 hneeds
  obtain ⟨req, pos, temps, index, run⟩ := exec_offers hs hneeds
  have waits := runEdges_waitsAfter offers vs s.inputs { s with ctrl := .busy, pos } temps req rfl (by omega) hserves
  exact ⟨_, run, { waits with }⟩

/-! ### ENUM_NEXT -/

theorem readPair_endedWith (a x v : Dword) : List.Forall₂ EndedWith [x, v] (readPair a v) :=
  .cons ⟨.write Config.addrPort a, rfl⟩ (.cons ⟨dataRead, rfl⟩ .nil)

theorem probeTxns_endedWith (p : Position) (x0 d0 x2 d2 x3 d3 : Dword) :
    List.Forall₂ EndedWith [x0, d0, x2, d2, x3, d3] (probeTxns p d0 d2 d3) :=
  List.rel_append (List.rel_append (readPair_endedWith _ x0 d0) (readPair_endedWith _ x2 d2))
    (readPair_endedWith _ x3 d3)

theorem present_headerOf (d0 d2 d3 : Dword) :
    present (headerOf d0 d2 d3) = (d0.extractLsb' 0 16 != Config.sentinelVendor) := rfl

/-- R145: each absent probe sends the loop round again, and the round that the edges do not serve in full waits. -/
theorem exec_enumNext_waitsAfter (mf : Bool) (p : Position) (vs : List Dword) :
    ∀ s : State, Fresh s → multifunction s.hdr = mf → s.pos = p → enumNeedsMore mf p vs = true →
      ServesOnly vs s.lateDue s.inputs → ∃ t, exec .enumNext s = .next t ∧ WaitsAfter s vs t := by
  fun_induction enumNeedsMore mf p vs with
  | case1 mf p x0 d0 x2 d2 x3 d3 vs ih =>
    rintro s hs rfl rfl hneeds hserves
    simp only [Bool.and_eq_true, Bool.not_eq_true', beq_iff_eq] at hneeds
    obtain ⟨⟨hslot, hvendor⟩, hneeds⟩ := hneeds
    obtain ⟨due, rest, hserved, hserves⟩ := hserves.probe
    have habsent : present (headerOf d0 d2 d3) = false := by simp [present_headerOf, hvendor]
    obtain ⟨-, loop⟩ := enumNextFollowsItsLoop
    obtain ⟨-, probe⟩ := loop s hs
    obtain ⟨-, absent⟩ := probe x0 d0 x2 d2 x3 d3 due rest hslot hserved
    obtain ⟨u, again, hu, hpos, hhdr, hhistory, hcmd, hrsp, rfl, rfl⟩ := absent habsent
    have hmf : multifunction u.hdr = false := by rw [hhdr, multifunction, habsent, Bool.false_and]
    obtain ⟨t, run, waits⟩ := ih u hu hmf hpos hneeds hserves
    refine ⟨t, again.trans run, waits.prepend (ws := [x0, d0, x2, d2, x3, d3]) hcmd hrsp hhistory ?_⟩
    exact probeTxns_endedWith _ x0 d0 x2 d2 x3 d3
  | case2 vs mf p hshort =>
    rintro s hs rfl rfl hneeds hserves
    have hlt : vs.length < 6 := by
      rcases vs with _ | ⟨x0, _ | ⟨d0, _ | ⟨x2, _ | ⟨d2, _ | ⟨x3, _ | ⟨d3, vs⟩⟩⟩⟩⟩⟩
      case cons.cons.cons.cons.cons.cons => exact absurd rfl (hshort x0 d0 x2 d2 x3 d3 vs)
      all_goals simp
    exact exec_waitsAfter hs (by simpa [needsMore, enumNeedsMore] using hneeds) hlt hserves

/-! ### The statement -/

/-- A command of two transactions that needs another one has made at most one. -/
theorem needsMore_access {i : Instr} {s : State} {vs : List Dword} (hi : i ≠ .enumNext)
    (hneeds : needsMore i s vs = true) : needsMore i s [] = true ∧ vs.length < uninterrupted i := by
  cases i with
  | encodeAddr | enumInit => simp [needsMore] at hneeds
  | enumNext => exact absurd rfl hi
  | rdDword | wrDword | rdWord | rdByte | rdBar | wrBar => exact ⟨rfl, by simpa [needsMore, uninterrupted] using hneeds⟩

/-- R212, for a command just accepted and any number of transactions. -/
theorem exec_waitsAfter_of_needsMore {i : Instr} {s : State} {vs : List Dword} (hs : Fresh s)
    (hneeds : needsMore i s vs = true) (hserves : ServesOnly vs s.lateDue s.inputs) :
    ∃ t, exec i s = .next t ∧ WaitsAfter s vs t := by
  by_cases hi : i = .enumNext
  · subst hi
    exact exec_enumNext_waitsAfter _ _ vs s hs rfl rfl hneeds hserves
  · obtain ⟨first, hlt⟩ := needsMore_access hi hneeds
    exact exec_waitsAfter hs first hlt hserves

/-- The commands that respond in their first move are ENCODE, ENUM_INIT and an ENUM_NEXT that ends its pass. -/
theorem needsMore_first {i : Instr} {s : State} (hencode : ∀ bus dev fn off, i ≠ .encodeAddr bus dev fn off)
    (hinit : i ≠ .enumInit) (hnext : i = .enumNext → atSentinel (advance (multifunction s.hdr) s.pos) = false) :
    needsMore i s [] = true := by
  cases i with
  | encodeAddr bus dev fn off => exact absurd rfl (hencode bus dev fn off)
  | enumInit => exact absurd rfl hinit
  | enumNext => simp [needsMore, enumNeedsMore, hnext rfl]
  | rdDword | wrDword | rdWord | rdByte | rdBar | wrBar => rfl

/-- Settles O43: the request under way is waited for, whether the command was running before, has just offered it, or
has made the transactions that the edges serve. -/
theorem unservedCommandHangs : Obligations.UnservedCommandHangs := by
  refine ⟨fun i s hio hr hnone => ?running, fun i s hs hr hnone hencode hinit hnext => ?first,
    fun i s vs due rest hs hr hserved hnone hneeds => ?later⟩
  case running =>
    have stalled := runEdges_stalled (seq := sequencerOf i) s.inputs { s with ctrl := .busy } rfl hio hr hnone
    exact ⟨_, by rw [exec_eq_runCommand, runCommand_active hio], stalled.ctrl, stalled.rsp, stalled.responder,
      ⟨stalled.pos, stalled.hdr⟩, stalled.io⟩
  case first =>
    obtain ⟨_, t, run, stalled⟩ := exec_stalled hs (needsMore_first hencode hinit hnext) hr hnone
    exact ⟨t, run, stalled.ctrl, stalled.rsp, stalled.responder⟩
  case later =>
    obtain ⟨t, run, waits⟩ := exec_waitsAfter_of_needsMore hs hneeds (servesOnly_of_served hr hserved hnone)
    obtain ⟨new, happend, ended⟩ := waits.history
    refine ⟨t, new, run, waits.ctrl, waits.rsp, waits.cmd, waits.io, happend, ended.length_eq.symm,
      fun x hx => ?completed, fun n w hgot => ?answers⟩
    case completed =>
      obtain ⟨n, hn⟩ := List.mem_iff_getElem?.mp hx
      obtain ⟨v, -, hv⟩ := endedWith_getElem? ended hn
      exact hv.completed
    case answers =>
      obtain ⟨x, hn, hx⟩ := Option.map_eq_some_iff.mp hgot
      obtain ⟨v, hvs, hv⟩ := endedWith_getElem? ended hn
      rw [hvs, hv.got hx]

end Sys2Proof.Machine
end

section
/-!
PROOFS. O41, a response is held until it is taken: an edge of a block in RESP without reset holds the response or ends
it, and looks at no command pin but to watch the offer. In a command only the move that responds writes the response
registers, so a block that is still BUSY has those it began with.
-/

namespace Sys2Proof.Machine

/-! ### An edge in RESP -/

theorem step_resp {s : State} {p : Pins} {ps : List Pins} (hc : s.ctrl = .resp) (hin : s.inputs = p :: ps) :
    step s = .next (respEdge p { s with inputs := ps }) := by
  simp [step, hc, hin]

/-- R35: the response is taken. -/
theorem respEdge_taken {p : Pins} (s : State) (hr : p.rst = false) (ready : p.rspReady = true) :
    respEdge p s = takeResponse p s := by
  simp [respEdge, hr, ready]

/-- R230: the response is held, whatever `cmdValid` is. -/
theorem respEdge_held {p : Pins} (s : State) (hr : p.rst = false) (waits : p.rspReady = false) :
    respEdge p s = passEdge p s := by
  simp [respEdge, hr, waits]

/-! ### A command that has not responded -/

/-- The move that leaves the block BUSY is an offer, which writes no response register. -/
theorem SequencerMove.rsp_of_busy {s t : State} (hm : SequencerMove s t) (hb : t.ctrl = .busy) : t.rsp = s.rsp := by
  cases hm with
  | respond => simp at hb
  | offer => rfl

theorem start_rsp_of_busy (i : Instr) (s : State) (hb : (start (sequencerOf i) s).ctrl = .busy) :
    (start (sequencerOf i) s).rsp = s.rsp := by
  unfold start at hb ⊢
  split at hb
  · exact (sequencerOf_move i _).rsp_of_busy hb
  · rfl

/-- A reset writes the response registers too, but it leaves the block IDLE. -/
theorem busyEdge_rsp_of_busy (i : Instr) (p : Pins) (s : State) (hb : (busyEdge (sequencerOf i) p s).ctrl = .busy) :
    (busyEdge (sequencerOf i) p s).rsp = s.rsp := by
  rcases busyEdge_cases (seq := sequencerOf i) p s with
    ⟨_, e⟩ | ⟨_, e, _⟩ | ⟨req, _, _, _, e⟩ | ⟨req, _, _, _, e⟩ <;> rw [e] at hb ⊢
  · simp at hb
  · rfl
  · rfl
  · exact (sequencerOf_move i _).rsp_of_busy hb

theorem exec_rsp_of_busy {i : Instr} {s t : State} (he : exec i s = .next t) (hb : t.ctrl = .busy) :
    t.rsp = s.rsp := by
  rw [exec_next] at he
  cases he
  exact runEdges_induction (P := fun u => u.ctrl = .busy → u.rsp = s.rsp) (fun _ _ h => h)
    (fun p u hu h hb => (busyEdge_rsp_of_busy i p u hb).trans (h hu)) _ _ (start_rsp_of_busy i s) hb

/-- Settles O41: the edge in RESP by whether the response is taken, and a command by the moves that leave it BUSY. -/
theorem responseIsHeldUntilTaken : Obligations.ResponseIsHeldUntilTaken := by
  refine ⟨fun s p ps hc hin hr => ⟨_, step_resp hc hin, ?_⟩, fun _ _ _ => exec_rsp_of_busy⟩
  cases ready : p.rspReady with
  | true =>
    rw [respEdge_taken _ hr ready]
    exact ⟨rfl, rfl, rfl, rfl, rfl, ⟨rfl, rfl⟩, rfl⟩
  | false =>
    rw [respEdge_held _ hr ready]
    exact ⟨hc, rfl, rfl, rfl, rfl, ⟨rfl, rfl⟩, rfl⟩

end Sys2Proof.Machine
end

section
/-!
PROOFS. The command word both ways, O29, O30, O32 and O38: decoding looks at the opcode alone, so each fact about it is
one case for each row of R84.
-/

namespace Sys2Proof.Machine

/-! ### Decoding and encoding -/

/-- The command word of a command holds its fields. -/
theorem ofWord_encode (i : Instr) : Command.ofWord (encode i) = i.command :=
  ofWord_toWord i.command

/-- A command's own fields decode to it (R84, R86). -/
theorem decode_command (i : Instr) : i.command.decode = .ok i := by
  cases i <;> rfl

/-- Settles O29: the word holds the command's fields, and these decode to the command. -/
theorem decodeOfEncodeIsTheCommand : Obligations.DecodeOfEncodeIsTheCommand := by
  intro i
  rw [decode, ofWord_encode, decode_command]

/-- R84, R85: what a command's fields can decode to, by the opcode alone. -/
theorem decode_cases (c : Command) :
    (c.op = 0x1 ∧ c.decode = .ok (.encodeAddr c.bus c.dev c.fn c.arg)) ∨
    (c.op = 0x2 ∧ c.decode = .ok (.rdDword c.bus c.dev c.fn c.arg)) ∨
    (c.op = 0x3 ∧ c.decode = .ok (.wrDword c.bus c.dev c.fn c.arg c.wdata)) ∨
    (c.op = 0x4 ∧ c.decode = .ok (.rdWord c.bus c.dev c.fn c.arg)) ∨
    (c.op = 0x5 ∧ c.decode = .ok (.rdByte c.bus c.dev c.fn c.arg)) ∨
    (c.op = 0x6 ∧ c.decode = .ok .enumInit) ∨
    (c.op = 0x7 ∧ c.decode = .ok .enumNext) ∨
    (c.op = 0x8 ∧ c.decode = .ok (.rdBar c.bus c.dev c.fn c.arg)) ∨
    (c.op = 0x9 ∧ c.decode = .ok (.wrBar c.bus c.dev c.fn c.arg c.wdata)) ∨
    ((c.op = 0 ∨ 0xA ≤ c.op.toNat) ∧ c.decode = .error (.unassignedOpcode c.op)) := by
  unfold Command.decode
  split
  case h_10 =>
    iterate 9 right
    refine ⟨?_, rfl⟩
    simp only [imp_false] at *
    bv_omega
  all_goals
    next hop => simp [hop]

/-- R84: which opcodes are unassigned. -/
theorem decode_error_iff (c : Command) : (∃ e, c.decode = .error e) ↔ c.op = 0 ∨ 0xA ≤ c.op.toNat := by
  rcases decode_cases c with ⟨hop, e⟩ | ⟨hop, e⟩ | ⟨hop, e⟩ | ⟨hop, e⟩ | ⟨hop, e⟩ | ⟨hop, e⟩ | ⟨hop, e⟩ | ⟨hop, e⟩ |
    ⟨hop, e⟩ | ⟨hop, e⟩
  case inr.inr.inr.inr.inr.inr.inr.inr.inr => exact ⟨fun _ => hop, fun _ => ⟨_, e⟩⟩
  all_goals simp [hop, e]

/-- Settles O30: each row of R84 encodes the fields it decoded, and zeros. -/
theorem encodeOfDecodeKeepsTheUsedFields : Obligations.EncodeOfDecodeKeepsTheUsedFields := by
  intro w i hi
  rw [decode] at hi
  dsimp only
  rw [ofWord_encode]
  rcases decode_cases (Command.ofWord w) with ⟨hop, e⟩ | ⟨hop, e⟩ | ⟨hop, e⟩ | ⟨hop, e⟩ | ⟨hop, e⟩ | ⟨hop, e⟩ |
    ⟨hop, e⟩ | ⟨hop, e⟩ | ⟨hop, e⟩ | ⟨_, e⟩ <;> rw [e] at hi <;> cases hi
  all_goals simp [hop, Instr.command, Instr.mnemonic, Mnemonic.opcode]

/-- Settles O32: the words are closed, and decoding computes. -/
theorem writtenOutWordsDecode : Obligations.WrittenOutWordsDecode :=
  ⟨rfl, rfl, rfl, rfl, rfl, rfl, rfl, rfl, rfl, rfl, rfl, rfl⟩

/-! ### The assembler's lines -/

/-- R88: the line of a command is well formed, whatever its operands. -/
theorem disassemble_wellFormed (i : Instr) : (disassemble i).wellFormed = true := by
  cases i with
  | encodeAddr | rdDword | rdWord | rdByte | rdBar => exact Laws.CommandFields.four_fit _ rfl _ _ _ _
  | wrDword | wrBar => exact Laws.CommandFields.five_fit _ rfl _ _ _ _ _
  | enumInit | enumNext => rfl

/-- R88: the line of a command assembles to it. -/
theorem lineInstr_disassemble (i : Instr) : lineInstr (disassemble i) = some i := by
  rw [lineInstr, if_pos (disassemble_wellFormed i)]
  cases i <;> simp [disassemble, Instr.mnemonic]

/-- A well-formed line has as many operands as its mnemonic takes, so one of the rows of R88 reads it. -/
theorem lineInstr_isSome {l : AsmLine} (h : l.wellFormed = true) : (lineInstr l).isSome = true := by
  obtain ⟨m, operands⟩ := l
  have count : operands.length = m.bounds.length := by
    simp only [AsmLine.wellFormed, AsmLine.countOk, Bool.and_eq_true, beq_iff_eq] at h
    exact h.1
  rw [lineInstr, if_pos h]
  cases m with
  | ENUM_INIT | ENUM_NEXT =>
    match operands, count with
    | [], _ => rfl
  | ENCODE | RD_DWORD | RD_WORD | RD_BYTE | RD_BAR =>
    match operands, count with
    | [_, _, _, _], _ => rfl
  | WR_DWORD | WR_BAR =>
    match operands, count with
    | [_, _, _, _, _], _ => rfl

/-- Settles O38: a command's own line gives it back, and `lineInstr` refuses no other line than the ill-formed. -/
theorem assemblerAcceptsExactlyWellFormedLines : Obligations.AssemblerAcceptsExactlyWellFormedLines := by
  refine ⟨fun i => ⟨lineInstr_disassemble i, by rw [assemble, lineInstr_disassemble]; rfl⟩, fun l => ?_⟩
  cases h : l.wellFormed with
  | true => simpa using Option.isSome_iff_ne_none.mp (lineInstr_isSome h)
  | false => simp [lineInstr, h]

end Sys2Proof.Machine
end

section
/-!
PROOFS. The fields of the configuration-address value and of a dword, O2, O3, O14, O16 and O19, and what each BAR index
reaches, O12: quotients and remainders of the numbers in Laws/Codec.lean.
-/

namespace Sys2Proof.Machine

/-! ### The masks of R100 -/

theorem toNat_and_dev (b : Byte) : (b &&& 0x1F).toNat = b.toNat % 32 :=
  Nat.and_two_pow_sub_one_eq_mod b.toNat 5

theorem toNat_and_fn (b : Byte) : (b &&& 0x07).toNat = b.toNat % 8 :=
  Nat.and_two_pow_sub_one_eq_mod b.toNat 3

/-- R100: the offset's mask clears its low two bits. -/
theorem and_off_eq_append (off : Byte) : off &&& 0xFC = off.extractLsb' 2 6 ++ 0#2 := by
  apply BitVec.eq_of_getLsbD_eq
  intro i hi
  simp only [BitVec.getLsbD_append, BitVec.getLsbD_and, BitVec.getLsbD_extractLsb']
  interval_cases i <;> simp

theorem toNat_and_off (off : Byte) : (off &&& 0xFC).toNat = off.toNat / 4 * 4 := by
  have hoff := off.isLt
  rw [and_off_eq_append, toNat_append_eq_mul_add, BitVec.extractLsb'_toNat, Nat.shiftRight_eq_div_pow]
  simp only [BitVec.toNat_ofNat]
  omega

/-! ### The address value -/

/-- A decoded field of `n` bits is the operand's low `n` bits. -/
theorem setWidth_extractLsb'_eq_and {n : Nat} (x mask : Byte) (hn : n ≤ 8)
    (hmask : (x &&& mask).toNat = x.toNat % 2 ^ n) : (x.extractLsb' 0 n).setWidth 8 = x &&& mask := by
  have fits : 2 ^ n ≤ 2 ^ 8 := Nat.pow_le_pow_right (by omega) hn
  have low : x.toNat % 2 ^ n < 2 ^ n := Nat.mod_lt _ (Nat.two_pow_pos n)
  apply BitVec.eq_of_toNat_eq
  rw [hmask, BitVec.toNat_setWidth, BitVec.extractLsb'_toNat, Nat.shiftRight_zero, Nat.mod_eq_of_lt (by omega)]

/-- Six bits shifted left by two are these bits with two zeros after them. -/
theorem shiftLeft_two_eq_append (x : BitVec 6) : x.setWidth 8 <<< 2 = x ++ 0#2 := by
  apply BitVec.eq_of_toNat_eq
  rw [toNat_append_eq_mul_add, BitVec.toNat_shiftLeft, BitVec.toNat_setWidth, Nat.shiftLeft_eq]
  simp only [BitVec.toNat_ofNat]
  bv_omega

/-- Settles O2: the fields are those of R80's layout, and the layout holds the masked operands. -/
theorem decodedAddressIsTheMaskedOperands : Obligations.DecodedAddressIsTheMaskedOperands := by
  refine ⟨fun a => ⟨_, _, _, _, rfl, rfl, ?dev, ?fn, shiftLeft_two_eq_append _⟩, fun bus dev fn off => ?_⟩
  case dev => bv_omega
  case fn => bv_omega
  obtain ⟨enable, -, hbus, hdev, hfn, hoff, -⟩ := encodedAddressHasTheLayout bus dev fn off
  rw [cfgFields, enable, hbus, hdev, hfn, hoff, shiftLeft_two_eq_append, ← and_off_eq_append,
    setWidth_extractLsb'_eq_and dev 0x1F (by omega) (toNat_and_dev dev),
    setWidth_extractLsb'_eq_and fn 0x07 (by omega) (toNat_and_fn fn)]

/-- R102: only the masked operands reach the address. -/
theorem cfgAddress_masked (bus dev fn off : Byte) :
    cfgAddress bus (dev &&& 0x1F) (fn &&& 0x07) (off &&& 0xFC) = cfgAddress bus dev fn off := by
  apply BitVec.eq_of_toNat_eq
  rw [cfgAddress_toNat, cfgAddress_toNat]
  have hdev := toNat_and_dev dev
  have hfn := toNat_and_fn fn
  have hoff := toNat_and_off off
  omega

/-- Settles O3: the decoder of O2 tells addresses of different masked operands apart. -/
theorem addressesAgreeExactlyOnMaskedOperands : Obligations.AddressesAgreeExactlyOnMaskedOperands := by
  refine ⟨fun bus dev fn off => (cfgAddress_masked bus dev fn off).symm,
    fun bus dev fn off bus' dev' fn' off' => ⟨fun same => ?_, ?_⟩⟩
  · obtain ⟨-, decoded⟩ := decodedAddressIsTheMaskedOperands
    have fields := congrArg cfgFields same
    rw [decoded, decoded] at fields
    simp only [Prod.mk.injEq] at fields
    obtain ⟨hbus, hdev, hfn, hoff, -⟩ := fields
    exact ⟨hbus, hdev, hfn, hoff⟩
  · rintro ⟨rfl, hdev, hfn, hoff⟩
    rw [← cfgAddress_masked bus dev, hdev, hfn, hoff, cfgAddress_masked]

/-! ### Byte lanes -/

/-- R51, R59: the low 24 bits of the latched address are the dword's place in the flat space. -/
theorem cfgAddress_key (bus dev fn off : Byte) :
    (cfgAddress bus dev fn off).toNat % 2 ^ 24 / 4 * 4 = configByteKey bus dev fn (off &&& 0xFC) := by
  have hbus := bus.isLt
  have hoff := off.isLt
  rw [cfgAddress_toNat, configByteKey, toNat_and_off]
  omega

/-- R115: RD_BYTE's byte is the lane of its own offset. -/
theorem byteOf_eq_lane (v : Dword) (off : Byte) : (byteOf v off).setWidth 8 = lane v (off.toNat % 4) := by
  rw [byteOf_eq_byte, lane]
  exact BitVec.setWidth_setWidth_of_le _ (by omega)

/-- Settles O14: lane `i` is at the dword's place plus `i`, and an offset is its dword's place plus `off % 4`. -/
theorem transfersAreLittleEndian : Obligations.TransfersAreLittleEndian := by
  intro bus dev fn off v
  dsimp only
  have lanes : transferBytes (cfgAddress bus dev fn off) v =
      [0, 1, 2, 3].map fun i => (configByteKey bus dev fn (off &&& 0xFC) + i, lane v i) := by
    rw [transferBytes, cfgAddress_key]
  have place : configByteKey bus dev fn off = configByteKey bus dev fn (off &&& 0xFC) + off.toNat % 4 := by
    rw [configByteKey, configByteKey, toNat_and_off]
    omega
  have number : off.toNat % 4 ∈ [0, 1, 2, 3] := by
    have : off.toNat % 4 < 4 := Nat.mod_lt _ (by omega)
    simp only [List.mem_cons, List.not_mem_nil, or_false]
    omega
  rw [lanes]
  refine ⟨by simp [lane], ?_⟩
  rw [place, byteOf_eq_lane]
  exact List.mem_map_of_mem number

/-! ### The header -/

/-- Settles O16: the vendor's test and the type's bit. -/
theorem multifunctionReadsTheHeldHeader : Obligations.MultifunctionReadsTheHeldHeader := by
  intro h
  simp [multifunction, present, Config.sentinelVendor]

/-- Settles O19: each field is a quotient and remainder of its dword. -/
theorem probeFieldsOfTheHeader : Obligations.ProbeFieldsOfTheHeader := by
  intro d0 d2 d3
  simp only [headerOf, BitVec.extractLsb'_toNat, Nat.shiftRight_eq_div_pow, and_true, true_and]
  have h0 := d0.isLt
  have h2 := d2.isLt
  omega

/-! ### BAR indexes -/

/-- Settles O12: the three ranges of the 8-bit sum; a BAR command is defined as the dword access at that offset. -/
theorem everyBarIndexIsAccepted : Obligations.EveryBarIndexIsAccepted := by
  refine ⟨fun index => ?_, fun _ _ _ _ _ _ => ⟨rfl, rfl⟩⟩
  have hindex := index.isLt
  have sum := barOffset_toNat index
  refine ⟨fun _ => by omega, fun _ => by omega, fun _ => BitVec.eq_of_toNat_eq ?_⟩
  rw [sum, barOffset_toNat]
  bv_omega

end Sys2Proof.Machine
end

section
/-!
PROOFS. The layer below the statements of this family: the edge of a BUSY block by what it does, how a command begins,
what each sequencer's move can be, and the inductions over a run and over what a step does.
-/

namespace Sys2Proof.Machine

/-! ### One edge of a BUSY block -/

section

variable {seq : State → State} {p : Pins} {s : State} {req : IoReq} (hr : p.rst = false)

include hr

theorem busyEdge_quiet (hio : s.io = .quiet) : busyEdge seq p s = passEdge p s := by
  simp [busyEdge, hr, hio]

theorem busyEdge_offered_waits (ho : s.io = .offered req) (waits : p.ioReqReady = false) :
    busyEdge seq p s = passEdge p s := by
  simp [busyEdge, hr, ho, waits]

theorem busyEdge_offered_ready (ho : s.io = .offered req) (ready : p.ioReqReady = true) :
    busyEdge seq p s = issue req (passEdge p s) := by
  simp [busyEdge, hr, ho, ready]

theorem busyEdge_outstanding_waits (ho : s.io = .outstanding req) (waits : ownCompletion p s.lateDue = false) :
    busyEdge seq p s = passEdge p s := by
  simp [busyEdge, hr, ho, waits]

theorem busyEdge_outstanding_done (ho : s.io = .outstanding req) (done : ownCompletion p s.lateDue = true) :
    busyEdge seq p s = seq (complete req p.ioRspRdata (passEdge p s)) := by
  simp [busyEdge, hr, ho, done]

end

/-- Two sequencers part only where a transaction completes. -/
theorem busyEdge_of_two (seq seq' : State → State) (p : Pins) (s : State) :
    busyEdge seq p s = busyEdge seq' p s ∨ ∃ u, busyEdge seq p s = seq u ∧ busyEdge seq' p s = seq' u := by
  rcases busyEdge_cases (seq := seq) p s with ⟨hr, e⟩ | ⟨hr, e, hio | ⟨_, hio, waits⟩ | ⟨_, hio, waits⟩⟩ |
    ⟨_, hr, hio, ready, e⟩ | ⟨_, hr, hio, done, e⟩ <;> rw [e]
  · exact .inl (busyEdge_reset hr).symm
  · exact .inl (busyEdge_quiet hr hio).symm
  · exact .inl (busyEdge_offered_waits hr hio waits).symm
  · exact .inl (busyEdge_outstanding_waits hr hio waits).symm
  · exact .inl (busyEdge_offered_ready hr hio ready).symm
  · exact .inr ⟨_, rfl, busyEdge_outstanding_done hr hio done⟩

/-- What a reset aborts is the request under way. -/
theorem io_of_abortedReq {p : Pins} {s : State} {req : IoReq} (h : abortedReq p s = some req) :
    s.io = .offered req ∨ s.io = .outstanding req := by
  unfold abortedReq at h
  split at h
  · next ho => exact .inr (by rw [ho, Option.some.inj h])
  · next ho => exact .inl (by rw [ho, Option.some.inj (Option.ite_none_right_eq_some.mp h).2])
  · cases h

/-! ### The beginning of a command -/

/-- A command with no request under way begins with its own move. -/
theorem start_quiet {seq : State → State} {s : State} (h : s.io = .quiet) :
    start seq s = seq { s with ctrl := .busy } := by
  simp [start, h]

/-- A command with a request under way makes no move of its own first. -/
theorem start_active {seq : State → State} {s : State} (h : ioActive s.io = true) :
    start seq s = { s with ctrl := .busy } := by
  unfold start
  split
  · simp_all [ioActive]
  · rfl

theorem ioActive_iff {io : IoPhase} : ioActive io = true ↔ io ≠ .quiet := by
  cases io <;> simp [ioActive]

/-- How a command begins: with its own move, or with the request under way. -/
theorem start_cases (seq : State → State) (s : State) :
    (s.io = .quiet ∧ start seq s = seq { s with ctrl := .busy }) ∨
    (ioActive s.io = true ∧ start seq s = { s with ctrl := .busy }) := by
  by_cases hio : s.io = .quiet
  · exact .inl ⟨hio, start_quiet hio⟩
  · have active : ioActive s.io = true := ioActive_iff.mpr hio
    exact .inr ⟨active, start_active active⟩

/-- A property of all but CTRL that a command's own moves keep, its first move keeps. -/
theorem start_keeps {P : State → Prop} {seq : State → State} (hctrl : ∀ s ctrl, P s → P { s with ctrl })
    (hseq : ∀ s, P s → P (seq s)) {s : State} (h : P s) : P (start seq s) := by
  rcases start_cases seq s with ⟨_, e⟩ | ⟨_, e⟩ <;> rw [e]
  · exact hseq _ (hctrl s _ h)
  · exact hctrl s _ h

/-- A change of the state that a sequencer's moves commute with, its first move commutes with. -/
theorem start_commutes {seq f : State → State} (hio : ∀ s, (f s).io = s.io)
    (hctrl : ∀ s, { f s with ctrl := .busy } = f { s with ctrl := .busy }) (hseq : ∀ s, seq (f s) = f (seq s))
    (s : State) : start seq (f s) = f (start seq s) := by
  rcases start_cases seq s with ⟨quiet, e⟩ | ⟨active, e⟩ <;> rw [e]
  · rw [start_quiet ((hio s).trans quiet), hctrl, hseq]
  · rw [start_active (by rwa [hio]), hctrl]

theorem start_inputs (i : Instr) (s : State) (ps : List Pins) :
    start (sequencerOf i) { s with inputs := ps } = { start (sequencerOf i) s with inputs := ps } :=
  start_commutes (f := fun s => { s with inputs := ps }) (fun _ => rfl) (fun _ => rfl)
    (fun s => sequencerOf_inputs i s ps) s

/-- A command over other edges. -/
theorem exec_inputs (i : Instr) (s : State) (ps : List Pins) :
    exec i { s with inputs := ps } = .next (runEdges (sequencerOf i) ps (start (sequencerOf i) s)) := by
  rw [exec_next, start_inputs, runEdges_inputs]

/-- R34: an idle block takes the command that is offered. -/
theorem step_accepts {s : State} {p : Pins} {ps : List Pins} (hc : s.ctrl = .idle) (hin : s.inputs = p :: ps)
    (hr : p.rst = false) (hv : p.cmdValid = true) : step s = runLatched (accept p { s with inputs := ps }) := by
  simp [step, hc, hin, idleEdge, hr, hv]

/-- R229: the fields latched are those on the pins, when an offer that waited was held. -/
theorem latchedCommand_held {s : State} {p : Pins} (hv : p.cmdValid = true)
    (hoffer : s.cmdOffer = .nothing ∨ s.cmdOffer = .waiting p.cmd) : latchedCommand p s = p.cmd := by
  rcases hoffer with h | h <;> simp [latchedCommand, h, CmdOffer.watch, hv]

theorem runLatched_ok {s : State} {i : Instr} (hi : s.cmd.decode = .ok i) : runLatched s = exec i s := by
  simp [runLatched, hi]

theorem runLatched_error {s : State} {e : DecodeError} (he : s.cmd.decode = .error e) :
    runLatched s = .next (takeIllegalCommand s) := by
  simp [runLatched, he]

/-! ### The moves -/

theorem SequencerMove.responder {s t : State} (h : SequencerMove s t) : t.responder = s.responder := by
  cases h <;> rfl

theorem SequencerMove.cmd {s t : State} (h : SequencerMove s t) : t.cmd = s.cmd := by
  cases h <;> rfl

theorem SequencerMove.cmdOffer {s t : State} (h : SequencerMove s t) : t.cmdOffer = s.cmdOffer := by
  cases h <;> rfl

theorem SequencerMove.ctrl_ne_idle {s t : State} (h : SequencerMove s t) (hs : s.ctrl ≠ .idle) : t.ctrl ≠ .idle := by
  cases h with
  | respond => simp
  | offer => exact hs

/-- `t` is what a command of one access does in one move from `s`: it offers its address write or its data access, or
it responds. -/
def AccessMove (s t : State) : Prop :=
  (s.temps.txnIndex = 0 ∧ ∃ bus dev fn off, t = offer (addrWrite bus dev fn off) s) ∨
  (s.temps.txnIndex = 1 ∧ ∃ req, req.port = Config.dataPort ∧ t = offer req s) ∨
  ∃ data, t = respond data false false s

theorem cfgReadDword_accessMove (bus dev fn off : Byte) (result : Dword → Dword) (s : State) :
    AccessMove s (cfgReadDword bus dev fn off (fun v => respond (result v) false false) s) := by
  rcases cfgReadDword_cases bus dev fn off (fun v => respond (result v) false false) s with
    ⟨index, e⟩ | ⟨index, e⟩ | ⟨_, e⟩
  · exact .inl ⟨index, _, _, _, _, e⟩
  · exact .inr (.inl ⟨index, dataRead, rfl, e⟩)
  · exact .inr (.inr ⟨_, e⟩)

theorem cfgWriteDword_accessMove (bus dev fn off : Byte) (value : Dword) (s : State) :
    AccessMove s (cfgWriteDword bus dev fn off value (respond 0 false false) s) := by
  rcases cfgWriteDword_cases bus dev fn off value (respond 0 false false) s with
    ⟨index, e⟩ | ⟨index, e⟩ | ⟨_, e⟩
  · exact .inl ⟨index, _, _, _, _, e⟩
  · exact .inr (.inl ⟨index, dataWrite value, rfl, e⟩)
  · exact .inr (.inr ⟨_, e⟩)

/-- Every command but the enumerator's two moves so. -/
theorem sequencerOf_accessMove {i : Instr} (hinit : i ≠ .enumInit) (hnext : i ≠ .enumNext) (s : State) :
    AccessMove s (sequencerOf i s) := by
  cases i with
  | enumInit => exact absurd rfl hinit
  | enumNext => exact absurd rfl hnext
  | encodeAddr => exact .inr (.inr ⟨_, rfl⟩)
  | rdDword bus dev fn off => exact cfgReadDword_accessMove bus dev fn off id s
  | wrDword bus dev fn off value => exact cfgWriteDword_accessMove bus dev fn off value s
  | rdWord bus dev fn off => exact cfgReadDword_accessMove bus dev fn off (wordOf · off) s
  | rdByte bus dev fn off => exact cfgReadDword_accessMove bus dev fn off (byteOf · off) s
  | rdBar bus dev fn index => exact cfgReadDword_accessMove bus dev fn (barOffset index) id s
  | wrBar bus dev fn index value => exact cfgWriteDword_accessMove bus dev fn (barOffset index) value s

theorem AccessMove.enumKept {s t : State} (h : AccessMove s t) : EnumKept s t := by
  rcases h with ⟨_, _, _, _, _, rfl⟩ | ⟨_, _, _, rfl⟩ | ⟨_, rfl⟩ <;> exact ⟨rfl, rfl⟩

theorem EnumKept.trans {s t u : State} (hst : EnumKept s t) (htu : EnumKept t u) : EnumKept s u :=
  ⟨htu.pos.trans hst.pos, htu.hdr.trans hst.hdr⟩

/-- What ENUM_NEXT's sequencer can do, by the transaction that is next (R143, R145). -/
theorem enumNextSeq_cases (s : State) :
    (s.temps.txnIndex = 0 ∧ enumNextSeq s = enumRound s) ∨
    ((s.temps.txnIndex = 1 ∨ s.temps.txnIndex = 3 ∨ s.temps.txnIndex = 5) ∧ enumNextSeq s = offer dataRead s) ∨
    (s.temps.txnIndex = 2 ∧ enumNextSeq s =
      offer (probeWrite s.pos Config.headerOffset2) { s with temps := { s.temps with probeD0 := s.temps.lastRead } }) ∨
    (s.temps.txnIndex = 4 ∧ enumNextSeq s =
      offer (probeWrite s.pos Config.headerOffset3) { s with temps := { s.temps with probeD2 := s.temps.lastRead } }) ∨
    (6 ≤ s.temps.txnIndex ∧ enumNextSeq s =
      probeDone { s with temps := { s.temps with probeD3 := s.temps.lastRead } }) := by
  unfold enumNextSeq
  rcases s.temps.txnIndex with _ | _ | _ | _ | _ | _ | n <;> simp

theorem enumNextSeq_probed {s : State} (h : 6 ≤ s.temps.txnIndex) :
    enumNextSeq s = probeDone { s with temps := { s.temps with probeD3 := s.temps.lastRead } } := by
  rcases enumNextSeq_cases s with ⟨index, _⟩ | ⟨index, _⟩ | ⟨index, _⟩ | ⟨index, _⟩ | ⟨_, e⟩
  case inr.inr.inr.inr => exact e
  all_goals omega

/-- R142: what an advance can do. -/
theorem advance_cases (mf : Bool) (p : Position) :
    (atSentinel p = true ∧ advance mf p = ⟨0, 0, 0⟩) ∨
    (atSentinel p = false ∧ mf = true ∧ p.fn ≠ 7 ∧ advance mf p = ⟨p.bus, p.dev, p.fn + 1⟩) ∨
    (atSentinel p = false ∧ p.dev ≠ 31 ∧ advance mf p = ⟨p.bus, p.dev + 1, 0⟩) ∨
    (atSentinel p = false ∧ p.dev = 31 ∧ advance mf p = ⟨p.bus + 1, 0, 0⟩) := by
  cases hp : atSentinel p with
  | true => exact .inl ⟨rfl, advance_of_atSentinel mf hp⟩
  | false =>
    by_cases hfn : mf = false ∨ p.fn = 7
    · by_cases hdev : p.dev = 31
      · exact .inr (.inr (.inr ⟨rfl, hdev, advance_bus hp hfn hdev⟩))
      · exact .inr (.inr (.inl ⟨rfl, hdev, advance_device hp hfn hdev⟩))
    · obtain ⟨hmf, next⟩ := not_or.mp hfn
      obtain rfl : mf = true := by simpa using hmf
      exact .inr (.inl ⟨rfl, rfl, next, advance_function hp next⟩)

/-! ### Inductions over a run -/

/-- A property that a command's first move makes true, and that each kind of edge keeps, over listed edges that are all
`Q`, holds after the command. -/
theorem exec_keeps_over {P : State → Prop} {Q : Pins → Prop} (i : Instr)
    (hin : ∀ s ps, P s → P { s with inputs := ps })
    (hreset : ∀ p s, Q p → p.rst = true → P s → P (resetEdge p s))
    (hpass : ∀ p s, Q p → P s → P (passEdge p s))
    (hissue : ∀ p s req, Q p → p.ioReqReady = true → s.io = .offered req → P s → P (issue req (passEdge p s)))
    (hcomplete : ∀ p s req v, Q p → s.ctrl = .busy → s.io = .outstanding req → P s →
      P (sequencerOf i (complete req v (passEdge p s))))
    {s t : State} (hq : ∀ p ∈ s.inputs, Q p) (hstart : P (start (sequencerOf i) s)) (he : exec i s = .next t) :
    P t := by
  rw [exec_next] at he
  cases he
  suffices run : ∀ (ps : List Pins) (u : State), (∀ p ∈ ps, Q p) → P u → P (runEdges (sequencerOf i) ps u) from
    run _ _ hq hstart
  intro ps
  induction ps with
  | nil => exact fun u _ h => hin u [] h
  | cons p ps ih =>
    intro u hq h
    obtain ⟨hp, hps⟩ := List.forall_mem_cons.mp hq
    by_cases hb : u.ctrl = .busy
    · rw [runEdges_cons_busy hb]
      refine ih _ hps ?_
      rcases busyEdge_cases (seq := sequencerOf i) p u with
        ⟨hr, e⟩ | ⟨_, e, _⟩ | ⟨req, _, ho, ready, e⟩ | ⟨req, _, ho, _, e⟩ <;> rw [e]
      · exact hreset p u hp hr h
      · exact hpass p u hp h
      · exact hissue p u req hp ready ho h
      · exact hcomplete p u req _ hp hb ho h
    · rw [runEdges_done hb]
      exact hin u _ h

/-- A property that a step's own part of an edge keeps, and the run of a latched command, holds after the step. -/
theorem step_keeps {P : State → Prop} (hin : ∀ s ps, P s → P { s with inputs := ps })
    (hreset : ∀ p s, P s → P (resetEdge p s)) (hpass : ∀ p s, P s → P (passEdge p s))
    (htake : ∀ p s, s.ctrl = .resp → P s → P (takeResponse p s))
    (hrun : ∀ s t, s.ctrl = .busy → P s → runLatched s = .next t → P t)
    (haccept : ∀ p s t, s.ctrl = .idle → P s → runLatched (accept p s) = .next t → P t)
    {s t : State} (h : P s) (hstep : step s = .next t) : P t := by
  rcases step_cases s with
    ⟨hb, e⟩ | ⟨_, _, e⟩ | ⟨p, ps, _, _, _, e⟩ | ⟨p, ps, hc, _, _, _, e⟩ | ⟨p, ps, _, _, _, _, _, e⟩ |
      ⟨p, ps, hc, _, _, _, e⟩
  · exact hrun s t hb h (e.symm.trans hstep)
  · cases e.symm.trans hstep
    exact h
  · cases e.symm.trans hstep
    exact hreset p _ (hin s ps h)
  · exact haccept p { s with inputs := ps } t hc (hin s ps h) (e.symm.trans hstep)
  · cases e.symm.trans hstep
    exact hpass p _ (hin s ps h)
  · cases e.symm.trans hstep
    exact htake p _ hc (hin s ps h)

end Sys2Proof.Machine
end

section
/-!
PROOFS. A property that a command keeps from its own first move on, over edges of a kind; and O52, the enumerator's
invariant.
-/

namespace Sys2Proof.Machine

/-! ### The enumerator's invariant, clause by clause -/

/-- R84: the opcode decides whether fields are a command. -/
theorem opAssigned_iff (c : Command) : opAssigned c = true ↔ ∃ i, c.decode = .ok i := by
  have range : opAssigned c = true ↔ ¬ (c.op = 0 ∨ 0xA ≤ c.op.toNat) := by
    simp only [opAssigned, Bool.and_eq_true, decide_eq_true_eq]
    bv_omega
  rw [range, ← decode_error_iff]
  cases c.decode <;> simp

theorem op_enumNext_of_decode {c : Command} {i : Instr} (hi : c.decode = .ok i) (hop : c.op = 7) : i = .enumNext := by
  rw [decode_of_op_enumNext hop] at hi
  exact (Except.ok.inj hi).symm

theorem op_of_decode_enumNext {c : Command} (hi : c.decode = .ok .enumNext) : c.op = 7 := by
  rcases decode_cases c with ⟨hop, e⟩ | ⟨hop, e⟩ | ⟨hop, e⟩ | ⟨hop, e⟩ | ⟨hop, e⟩ | ⟨hop, e⟩ | ⟨hop, e⟩ | ⟨hop, e⟩ |
    ⟨hop, e⟩ | ⟨hop, e⟩ <;> rw [e] at hi <;> cases hi
  exact hop

/-- R23: a position is a slot, or it is (256,0,0) with no header held. -/
theorem posOk_iff (p : Position) (h : Header) :
    posOk p h = true ↔ atSentinel p = false ∨ p = sentinelPosition ∧ h.vendor = Config.sentinelVendor := by
  obtain ⟨bus, dev, fn⟩ := p
  simp only [posOk, atSentinel, sentinelPosition, Position.mk.injEq, Bool.and_eq_true, Bool.or_eq_true,
    decide_eq_true_eq, decide_eq_false_iff_not, bne_iff_ne, beq_iff_eq]
  by_cases hbus : bus = Config.sentinelBus
  · simp [hbus, and_assoc]
  · simp only [hbus, false_and, or_false, ne_eq, not_false_eq_true, true_or, and_true]
    bv_omega

theorem enumInv_iff (s : State) :
    enumInv s = true ↔ posOk s.pos s.hdr = true ∧ (ioActive s.io = true ↔ s.ctrl = .busy) ∧
      (s.ctrl = .busy → opAssigned s.cmd = true ∧ (s.cmd.op = 7 → atSentinel s.pos = false)) := by
  by_cases hb : s.ctrl = .busy
  · simp [enumInv, hb, imp_iff_not_or, and_assoc]
  · have notBusy : (s.ctrl == .busy) = false := beq_eq_false_iff_ne.mpr hb
    simp [enumInv, bne, notBusy, hb]

/-- R142: an advance reaches no position beyond (256,0,0). -/
theorem advance_atSentinel {mf : Bool} {p : Position} (h : atSentinel (advance mf p) = true) :
    advance mf p = sentinelPosition := by
  rcases advance_cases mf p with ⟨_, e⟩ | ⟨hp, _, _, e⟩ | ⟨hp, _, e⟩ | ⟨hp, _, e⟩ <;> rw [e] at h ⊢
  · exact absurd h (by decide)
  · exact absurd (hp.symm.trans h) (by decide)
  · exact absurd (hp.symm.trans h) (by decide)
  · rw [atSentinel_iff] at h
    rw [not_atSentinel_iff] at hp
    have last : p.bus + 1 = Config.sentinelBus := by
      simp only [Config.sentinelBus]
      bv_omega
    rw [last, sentinelPosition]

/-! ### A running command -/

/-- The enumerator's invariant for a block that runs `i`, if it is BUSY. -/
def EnumRuns (i : Instr) (s : State) : Prop :=
  enumInv s = true ∧ (s.ctrl = .busy → s.cmd.decode = .ok i)

section

variable {i : Instr} {s : State}

theorem enumRuns_of_done (hc : s.ctrl ≠ .busy) (hio : s.io = .quiet) (hpos : posOk s.pos s.hdr = true) :
    EnumRuns i s :=
  ⟨(enumInv_iff s).mpr ⟨hpos, by simp [hio, ioActive, hc], fun hb => absurd hb hc⟩, fun hb => absurd hb hc⟩

theorem enumRuns_respond (data : Dword) (found err : Bool) (hpos : posOk s.pos s.hdr = true) :
    EnumRuns i (respond data found err s) :=
  enumRuns_of_done (by simp) rfl hpos

theorem enumRuns_offer (req : IoReq) (hb : s.ctrl = .busy) (hcmd : s.cmd.decode = .ok i)
    (hpos : posOk s.pos s.hdr = true) (hslot : i = .enumNext → atSentinel s.pos = false) :
    EnumRuns i (offer req s) :=
  ⟨(enumInv_iff _).mpr ⟨hpos, by simp [ioActive, hb], fun _ => ⟨(opAssigned_iff _).mpr ⟨i, hcmd⟩,
    fun hop => hslot (op_enumNext_of_decode hcmd hop)⟩⟩, fun _ => hcmd⟩

theorem enumRuns_resetEdge (p : Pins) (s : State) : EnumRuns i (resetEdge p s) :=
  enumRuns_of_done (by simp) rfl (by decide : posOk State.reset.pos State.reset.hdr = true)

/-- An offered request that is issued is still under way. -/
theorem EnumRuns.issue {p : Pins} {req : IoReq} (ho : s.io = .offered req) (h : EnumRuns i s) :
    EnumRuns i (issue req (passEdge p s)) := by
  obtain ⟨inv, hcmd⟩ := h
  rw [enumInv_iff, ho] at inv
  exact ⟨(enumInv_iff _).mpr inv, hcmd⟩

/-- A round of the loop keeps R23, whatever header is held. -/
theorem enumRuns_enumRound (hb : s.ctrl = .busy) (hcmd : s.cmd.decode = .ok i) : EnumRuns i (enumRound s) := by
  rcases enumRound_cases s with ⟨hend, e⟩ | ⟨hslot, e⟩ <;> rw [e]
  · exact enumRuns_respond _ _ _ ((posOk_iff _ _).mpr (.inr ⟨advance_atSentinel hend, rfl⟩))
  · exact enumRuns_offer _ hb hcmd ((posOk_iff _ _).mpr (.inl hslot)) fun _ => hslot

theorem enumRuns_probeDone (hb : s.ctrl = .busy) (hcmd : s.cmd.decode = .ok i) (hslot : atSentinel s.pos = false) :
    EnumRuns i (probeDone s) := by
  cases h : present (probedHeader s) with
  | true =>
    rw [probeDone_present h]
    exact enumRuns_respond _ _ _ ((posOk_iff _ _).mpr (.inl hslot))
  | false =>
    rw [probeDone_absent h]
    exact enumRuns_enumRound hb hcmd

theorem enumRuns_enumNextSeq (hb : s.ctrl = .busy) (hcmd : s.cmd.decode = .ok .enumNext)
    (hpos : posOk s.pos s.hdr = true) (hslot : s.temps.txnIndex = 0 ∨ atSentinel s.pos = false) :
    EnumRuns .enumNext (enumNextSeq s) := by
  have slot (hindex : s.temps.txnIndex ≠ 0) : atSentinel s.pos = false := hslot.resolve_left hindex
  rcases enumNextSeq_cases s with ⟨_, e⟩ | ⟨index, e⟩ | ⟨index, e⟩ | ⟨index, e⟩ | ⟨index, e⟩ <;> rw [e]
  · exact enumRuns_enumRound hb hcmd
  · exact enumRuns_offer _ hb hcmd hpos fun _ => slot (by omega)
  · exact enumRuns_offer _ hb hcmd hpos fun _ => slot (by omega)
  · exact enumRuns_offer _ hb hcmd hpos fun _ => slot (by omega)
  · exact enumRuns_probeDone hb hcmd (slot (by omega))

/-- The move of a command that has just been accepted, or whose transaction has just completed. -/
theorem enumRuns_sequencerOf (hb : s.ctrl = .busy) (hcmd : s.cmd.decode = .ok i) (hpos : posOk s.pos s.hdr = true)
    (hslot : i = .enumNext → s.temps.txnIndex = 0 ∨ atSentinel s.pos = false) : EnumRuns i (sequencerOf i s) := by
  by_cases hnext : i = .enumNext
  · subst hnext
    exact enumRuns_enumNextSeq hb hcmd hpos (hslot rfl)
  by_cases hinit : i = .enumInit
  · subst hinit
    exact enumRuns_respond _ _ _ ((posOk_iff _ _).mpr (.inr ⟨rfl, rfl⟩))
  rcases sequencerOf_accessMove hinit hnext s with ⟨_, _, _, _, _, e⟩ | ⟨_, _, _, e⟩ | ⟨_, e⟩ <;> rw [e]
  · exact enumRuns_offer _ hb hcmd hpos fun h => absurd h hnext
  · exact enumRuns_offer _ hb hcmd hpos fun h => absurd h hnext
  · exact enumRuns_respond _ _ _ hpos

/-- A transaction that is under way in `s` completes and the command goes on. -/
theorem enumRuns_complete (p : Pins) (req : IoReq) (v : Dword) (hb : s.ctrl = .busy) (h : EnumRuns i s) :
    EnumRuns i (sequencerOf i (complete req v (passEdge p s))) := by
  obtain ⟨inv, hcmd⟩ := h
  obtain ⟨hpos, -, hbusy⟩ := (enumInv_iff s).mp inv
  refine enumRuns_sequencerOf (s := complete req v (passEdge p s)) hb (hcmd hb) hpos fun hi => .inr ((hbusy hb).2 ?_)
  exact op_of_decode_enumNext (hi ▸ hcmd hb)

/-- A command keeps the invariant from its first move on. -/
theorem enumRuns_exec {t : State} (hstart : EnumRuns i (start (sequencerOf i) s)) (he : exec i s = .next t) :
    EnumRuns i t :=
  exec_keeps_over (P := EnumRuns i) (Q := fun _ => True) i
    (hin := fun _ _ h => h)
    (hreset := fun p s _ _ _ => enumRuns_resetEdge p s)
    (hpass := fun _ _ _ h => h)
    (hissue := fun _ _ _ _ _ ho h => h.issue ho)
    (hcomplete := fun p _ req v _ hb _ h => enumRuns_complete p req v hb h)
    (fun _ _ => trivial) hstart he

end

/-- A BUSY block runs its latched command on. -/
theorem enumInv_runLatched {s t : State} (hb : s.ctrl = .busy) (h : enumInv s = true) (he : runLatched s = .next t) :
    enumInv t = true := by
  obtain ⟨hpos, hio, hbusy⟩ := (enumInv_iff s).mp h
  rcases runLatched_cases s with ⟨i, hi, e⟩ | ⟨_, herr, _⟩
  · have active : ioActive s.io = true := hio.mpr hb
    refine (enumRuns_exec (i := i) (s := s) ?_ (e.symm.trans he)).1
    rw [start_active active, ← hb]
    exact ⟨h, fun _ => hi⟩
  · obtain ⟨i, hi⟩ := (opAssigned_iff _).mp (hbusy hb).1
    simp [hi] at herr

/-- An accepted command runs from its first move; an illegal one responds. -/
theorem enumInv_accept {p : Pins} {s t : State} (h : enumInv s = true) (he : runLatched (accept p s) = .next t) :
    enumInv t = true := by
  obtain ⟨hpos, -, -⟩ := (enumInv_iff s).mp h
  rcases runLatched_cases (accept p s) with ⟨i, hi, e⟩ | ⟨_, _, e⟩
  · refine (enumRuns_exec (i := i) ?_ (e.symm.trans he)).1
    rw [start_quiet rfl]
    exact enumRuns_sequencerOf (s := { accept p s with ctrl := .busy }) rfl hi hpos fun _ => .inl rfl
  · cases e.symm.trans he
    exact (enumRuns_respond (i := .enumInit) 0 false true (s := accept p s) hpos).1

/-- Settles O52: each thing a step can do keeps the enumerator's invariant. -/
theorem stepKeepsTheEnumeratorInvariant : Obligations.StepKeepsTheEnumeratorInvariant := by
  intro s t h hstep
  refine step_keeps (P := fun s => enumInv s = true)
    (hin := fun _ _ h => h)
    (hreset := fun p s _ => (enumRuns_resetEdge (i := .enumInit) p s).1)
    (hpass := fun _ _ h => h)
    (htake := fun p s hc h => ?_)
    (hrun := fun _ _ => enumInv_runLatched)
    (haccept := fun _ _ _ _ => enumInv_accept) h hstep
  obtain ⟨hpos, hio, -⟩ := (enumInv_iff s).mp h
  exact (enumInv_iff _).mpr ⟨hpos, by simpa [hc] using hio, fun hb => by simp at hb⟩

end Sys2Proof.Machine
end

section
/-!
PROOFS. O54, the pairing invariant: a data access is offered only at an odd transaction number, and the move that
offers it comes right after the completion of an address write. So the invariant is said of the request under way, of
the history that a transaction's end leaves, and of the move after it.
-/

namespace Sys2Proof.Machine

/-! ### The invariant, clause by clause -/

/-- The request under way in `s` is a data access, right after the address write that the latch shows; or it is an
address write. -/
def Paired (s : State) (req : IoReq) : Prop :=
  (s.temps.txnIndex % 2 = 1 ∧ req.port = Config.dataPort ∧ justWrote s.responder.history s.responder.latch = true) ∨
  (s.temps.txnIndex % 2 = 0 ∧ ∃ a, req = .write Config.addrPort a)

theorem isData_iff (req : IoReq) : isData req = true ↔ req.port = Config.dataPort := by
  cases req <;> simp [isData, IoReq.port]

/-- What the invariant says of the request under way, if there is one. -/
def PairedIo (s : State) : IoPhase → Prop
  | .quiet => s.ctrl ≠ .busy
  | .offered req => Paired s req
  | .outstanding req => Paired s req

theorem pairInv_iff (s : State) :
    pairInv s = true ↔ pairedAfter none s.responder.history = true ∧ PairedIo s s.io := by
  have ports : Config.dataPort ≠ Config.addrPort := by decide
  rcases hio : s.io with _ | (⟨port, v⟩ | ⟨port⟩) | (⟨port, v⟩ | ⟨port⟩)
  · simp [pairInv, hio, ioReqOk, PairedIo]
  all_goals
    by_cases hport : port = Config.dataPort
    all_goals
      rcases Nat.mod_two_eq_zero_or_one s.temps.txnIndex with index | index
      all_goals simp [pairInv, hio, ioReqOk, PairedIo, Paired, isData, IoReq.port, index, hport, ports]

/-! ### What a transaction's end leaves -/

theorem pairedAfter_append_singleton (x : IoTxn) : ∀ (prev : Option IoTxn) (h : List IoTxn),
    pairedAfter prev (h ++ [x]) = (pairedAfter prev h && pairedAfter (h.getLast?.or prev) [x])
  | prev, [] => by simp [pairedAfter]
  | prev, y :: ys => by
    have last : (y :: ys).getLast?.or prev = ys.getLast?.or (some y) := by
      rw [List.getLast?_cons]
      cases ys.getLast? <;> rfl
    simp only [List.cons_append, pairedAfter, pairedAfter_append_singleton x (some y) ys, last, Bool.and_assoc]

/-- The end of a paired request may be recorded, whatever it is. -/
theorem Paired.record {s : State} {req : IoReq} (h : Paired s req) (ending : TxnEnd)
    (hh : pairedAfter none s.responder.history = true) :
    pairedAfter none (s.responder.history ++ [txnOf req s.responder.latch ending]) = true := by
  rw [pairedAfter_append_singleton, hh, Bool.true_and]
  rcases h with ⟨-, hport, wrote⟩ | ⟨-, a, rfl⟩
  · simp only [justWrote, beq_iff_eq] at wrote
    simp [pairedAfter, txnOf_of_dataPort hport, wrote, (isData_iff req).mpr hport]
  · rfl

/-- The request under way is paired. -/
theorem paired_of_abortedReq {p : Pins} {s : State} {req : IoReq} (h : abortedReq p s = some req)
    (hio : PairedIo s s.io) : Paired s req := by
  rcases io_of_abortedReq h with ho | ho <;> rwa [ho] at hio

theorem pairedAfter_abortIo {p : Pins} {s : State} (h : pairInv s = true) :
    pairedAfter none (abortIo p s).history = true := by
  obtain ⟨hh, hio⟩ := (pairInv_iff s).mp h
  unfold abortIo
  split
  · next req ha => exact (paired_of_abortedReq ha hio).record _ hh
  · exact hh

/-- The next move may be made: the history is paired, and at an odd transaction number it ends with the address write
that the latch shows. -/
def PairReady (s : State) : Prop :=
  pairedAfter none s.responder.history = true ∧
    (s.temps.txnIndex % 2 = 1 → justWrote s.responder.history s.responder.latch = true)

theorem pairReady_complete {s : State} (p : Pins) {req : IoReq} (v : Dword) (hio : s.io = .outstanding req)
    (h : pairInv s = true) : PairReady (complete req v (passEdge p s)) := by
  rw [pairInv_iff, hio] at h
  obtain ⟨hh, hreq⟩ := h
  refine ⟨hreq.record _ hh, fun odd => ?_⟩
  rcases hreq with ⟨index, -, -⟩ | ⟨-, a, rfl⟩
  · simp only [complete_temps, passEdge_temps] at odd
    omega
  · simp [completedResponder, txnOf, IoReq.port, IoReq.ending, Responder.takeWrite, justWrote, Config.addrPort,
      Config.dataPort]

/-! ### The moves -/

section

variable {s : State}

theorem pairInv_of_quiet (hio : s.io = .quiet) (hc : s.ctrl ≠ .busy)
    (hh : pairedAfter none s.responder.history = true) : pairInv s = true :=
  (pairInv_iff s).mpr ⟨hh, by rw [hio]; exact hc⟩

theorem PairReady.respond (h : PairReady s) (data : Dword) (found err : Bool) :
    pairInv (respond data found err s) = true :=
  pairInv_of_quiet rfl (by simp) h.1

/-- An address write is offered at an even transaction number. -/
theorem PairReady.offerAddress (h : PairReady s) (index : s.temps.txnIndex % 2 = 0) (a : Dword) :
    pairInv (offer (.write Config.addrPort a) s) = true :=
  (pairInv_iff _).mpr ⟨h.1, .inr ⟨index, a, rfl⟩⟩

/-- A data access is offered at an odd one. -/
theorem PairReady.offerData (h : PairReady s) (index : s.temps.txnIndex % 2 = 1) {req : IoReq}
    (hport : req.port = Config.dataPort) : pairInv (offer req s) = true :=
  (pairInv_iff _).mpr ⟨h.1, .inl ⟨index, hport, h.2 index⟩⟩

theorem PairReady.enumRound (h : PairReady s) : pairInv (enumRound s) = true := by
  have ready (pos : Position) (hdr : Header) :
      PairReady { s with pos, hdr, temps := { s.temps with txnIndex := 0 } } := ⟨h.1, fun odd => by simp at odd⟩
  rcases enumRound_cases s with ⟨_, e⟩ | ⟨_, e⟩ <;> rw [e]
  · exact (ready _ _).respond _ _ _
  · exact (ready _ s.hdr).offerAddress rfl _

theorem PairReady.probeDone (h : PairReady s) : pairInv (probeDone s) = true := by
  cases hp : present (probedHeader s) with
  | true =>
    rw [probeDone_present hp]
    exact PairReady.respond (s := { s with hdr := probedHeader s }) h _ _ _
  | false =>
    rw [probeDone_absent hp]
    exact PairReady.enumRound (s := { s with hdr := probedHeader s }) h

theorem PairReady.enumNextSeq (h : PairReady s) : pairInv (enumNextSeq s) = true := by
  rcases enumNextSeq_cases s with ⟨_, e⟩ | ⟨index, e⟩ | ⟨index, e⟩ | ⟨index, e⟩ | ⟨index, e⟩ <;> rw [e]
  · exact h.enumRound
  · exact h.offerData (by omega) rfl
  · exact PairReady.offerAddress (s := { s with temps := { s.temps with probeD0 := s.temps.lastRead } }) h
      (by simp [index]) _
  · exact PairReady.offerAddress (s := { s with temps := { s.temps with probeD2 := s.temps.lastRead } }) h
      (by simp [index]) _
  · exact PairReady.probeDone (s := { s with temps := { s.temps with probeD3 := s.temps.lastRead } }) h

theorem PairReady.sequencerOf (h : PairReady s) (i : Instr) : pairInv (sequencerOf i s) = true := by
  by_cases hnext : i = .enumNext
  · subst hnext
    exact h.enumNextSeq
  by_cases hinit : i = .enumInit
  · subst hinit
    exact pairInv_of_quiet rfl (by simp [Machine.sequencerOf]) h.1
  rcases sequencerOf_accessMove hinit hnext s with ⟨index, _, _, _, _, e⟩ | ⟨index, _, hport, e⟩ | ⟨_, e⟩ <;> rw [e]
  · exact h.offerAddress (by simp [index]) _
  · exact h.offerData (by simp [index]) hport
  · exact h.respond _ _ _

end

/-! ### Commands and steps -/

theorem pairInv_resetEdge (p : Pins) (s : State) (h : pairInv s = true) : pairInv (resetEdge p s) = true :=
  pairInv_of_quiet rfl (by simp) (pairedAfter_abortIo h)

theorem pairInv_issue (p : Pins) (s : State) (req : IoReq) (hio : s.io = .offered req) (h : pairInv s = true) :
    pairInv (issue req (passEdge p s)) = true := by
  rw [pairInv_iff, hio] at h
  exact (pairInv_iff _).mpr h

theorem pairInv_exec {i : Instr} {s t : State} (hstart : pairInv (start (sequencerOf i) s) = true)
    (he : exec i s = .next t) : pairInv t = true :=
  exec_keeps_over (P := fun s => pairInv s = true) (Q := fun _ => True) i
    (hin := fun _ _ h => h)
    (hreset := fun p s _ _ => pairInv_resetEdge p s)
    (hpass := fun _ _ _ h => h)
    (hissue := fun p s req _ _ => pairInv_issue p s req)
    (hcomplete := fun p _ _ v _ _ hio h => (pairReady_complete p v hio h).sequencerOf i)
    (fun _ _ => trivial) hstart he

/-- A BUSY block has its request under way, and runs its command on; where the command is illegal it responds. -/
theorem pairInv_runLatched {s t : State} (hb : s.ctrl = .busy) (h : pairInv s = true) (he : runLatched s = .next t) :
    pairInv t = true := by
  obtain ⟨hh, hio⟩ := (pairInv_iff s).mp h
  rcases runLatched_cases s with ⟨i, _, e⟩ | ⟨_, _, e⟩
  · have active : ioActive s.io = true := by
      cases hq : s.io
      · exact absurd hb (by simpa [hq, PairedIo] using hio)
      all_goals rfl
    refine pairInv_exec (i := i) (s := s) ?_ (e.symm.trans he)
    rw [start_active active, ← hb]
    exact h
  · cases e.symm.trans he
    exact pairInv_of_quiet rfl (by simp) hh

/-- An accepted command begins with transaction 0. -/
theorem pairInv_accept {p : Pins} {s t : State} (h : pairInv s = true) (he : runLatched (accept p s) = .next t) :
    pairInv t = true := by
  obtain ⟨hh, -⟩ := (pairInv_iff s).mp h
  rcases runLatched_cases (accept p s) with ⟨i, _, e⟩ | ⟨_, _, e⟩
  · have ready : PairReady { accept p s with ctrl := .busy } := ⟨hh, fun odd => by simp at odd⟩
    refine pairInv_exec (i := i) ?_ (e.symm.trans he)
    rw [start_quiet rfl]
    exact ready.sequencerOf i
  · cases e.symm.trans he
    exact pairInv_of_quiet rfl (by simp) hh

/-- Settles O54: each thing a step can do keeps the pairing invariant. -/
theorem stepKeepsThePairInvariant : Obligations.StepKeepsThePairInvariant := by
  intro s t h hstep
  refine step_keeps (P := fun s => pairInv s = true)
    (hin := fun _ _ h => h)
    (hreset := pairInv_resetEdge)
    (hpass := fun _ _ h => h)
    (htake := fun p s hc h => ?_)
    (hrun := fun _ _ => pairInv_runLatched)
    (haccept := fun _ _ _ _ => pairInv_accept) h hstep
  obtain ⟨hh, hio⟩ := (pairInv_iff s).mp h
  refine (pairInv_iff _).mpr ⟨hh, ?_⟩
  rw [takeResponse_io]
  cases hq : s.io with
  | quiet => simp [PairedIo]
  | offered req | outstanding req => rwa [hq] at hio

end Sys2Proof.Machine
end

section
/-!
PROOFS. What a move and an edge leave unchanged: the history grows at its end (O55), the latched fields stay (O36), and
the other commands keep the enumerator (O28).
-/

namespace Sys2Proof.Machine

/-! ### The history -/

/-- R222: a reset takes nothing from the history. -/
theorem history_abortIo (p : Pins) (s : State) : s.responder.history <+: (abortIo p s).history := by
  unfold abortIo
  split
  · exact List.prefix_append _ _
  · exact List.prefix_rfl

theorem history_exec {i : Instr} {s t : State} (he : exec i s = .next t) :
    s.responder.history <+: t.responder.history := by
  have move (u : State) : (sequencerOf i u).responder = u.responder := (sequencerOf_move i u).responder
  exact exec_keeps (P := fun u => s.responder.history <+: u.responder.history) i
    (hin := fun _ _ h => h)
    (hreset := fun p u h => h.trans (history_abortIo p u))
    (hpass := fun _ _ h => h)
    (hissue := fun _ _ _ _ h => h)
    (hcomplete := fun _ _ _ _ _ _ h => by
      rw [move]
      exact h.trans (List.prefix_append _ _))
    (hstart := fun _ => start_keeps (P := fun u => s.responder.history <+: u.responder.history) (fun _ _ h => h)
      fun u h => by rwa [move])
    List.prefix_rfl he

theorem history_runLatched {s t : State} (he : runLatched s = .next t) :
    s.responder.history <+: t.responder.history := by
  rcases runLatched_cases s with ⟨i, _, e⟩ | ⟨_, _, e⟩
  · exact history_exec (e.symm.trans he)
  · cases e.symm.trans he
    exact List.prefix_rfl

/-- Settles O55: every edge and every command adds to the end of the history, or leaves it. -/
theorem stepOnlyAddsToTheHistory : Obligations.StepOnlyAddsToTheHistory := by
  intro s t hstep
  obtain ⟨new, happend⟩ := step_keeps (P := fun u => s.responder.history <+: u.responder.history)
    (hin := fun _ _ h => h)
    (hreset := fun p u h => h.trans (history_abortIo p u))
    (hpass := fun _ _ h => h)
    (htake := fun _ _ _ h => h)
    (hrun := fun _ _ _ h he => h.trans (history_runLatched he))
    (haccept := fun p u _ _ h he => h.trans (history_runLatched (s := accept p u) he)) List.prefix_rfl hstep
  exact ⟨new, happend.symm⟩

/-! ### The latched fields and the enumerator -/

/-- Settles O36: no move and no edge but a reset writes CMD_*. -/
theorem latchedFieldsStayUnchanged : Obligations.LatchedFieldsStayUnchanged := by
  intro i s t hr he
  have move (u : State) : (sequencerOf i u).cmd = u.cmd := (sequencerOf_move i u).cmd
  exact exec_keeps_over (P := fun u => u.cmd = s.cmd) (Q := fun p => p.rst = false) i
    (hin := fun _ _ h => h)
    (hreset := fun _ _ hp reset _ => by simp [hp] at reset)
    (hpass := fun _ _ _ h => h)
    (hissue := fun _ _ _ _ _ _ h => h)
    (hcomplete := fun _ _ _ _ _ _ _ h => by rwa [move])
    hr (start_keeps (P := fun u => u.cmd = s.cmd) (fun _ _ h => h) (fun u h => by rwa [move]) rfl) he

/-- Settles O28: a command of one access moves nothing of the enumerator's, and only a reset does besides. -/
theorem otherCommandsKeepTheEnumerator : Obligations.OtherCommandsKeepTheEnumerator := by
  refine ⟨fun i s t hinit hnext hr he => ?_, fun s => ⟨rfl, rfl⟩⟩
  have move (u : State) (h : EnumKept s u) : EnumKept s (sequencerOf i u) :=
    h.trans (sequencerOf_accessMove hinit hnext u).enumKept
  exact exec_keeps_over (P := EnumKept s) (Q := fun p => p.rst = false) i
    (hin := fun _ _ h => ⟨h.pos, h.hdr⟩)
    (hreset := fun _ _ hp reset _ => by simp [hp] at reset)
    (hpass := fun _ _ _ h => ⟨h.pos, h.hdr⟩)
    (hissue := fun _ _ _ _ _ _ h => ⟨h.pos, h.hdr⟩)
    (hcomplete := fun _ _ _ _ _ _ _ h => move _ ⟨h.pos, h.hdr⟩)
    hr (start_keeps (fun _ _ h => ⟨h.pos, h.hdr⟩) move ⟨rfl, rfl⟩) he

end Sys2Proof.Machine
end

section
/-!
PROOFS. Acceptance, pins and spurious completions: O33, O35, O39, O40, O42, O46, O49, O50, O51 and O56. A step that
accepts is `runLatched` of the accepting edge; an edge of a request under way is one `busyEdge`.
-/

namespace Sys2Proof.Machine

/-! ### The accepting edge -/

/-- Settles O33: such a command is latched and answered in the step that accepts it. -/
theorem unassignedOpcodeRespondsIllegal : Obligations.UnassignedOpcodeRespondsIllegal := by
  refine ⟨decode_error_iff, fun s p ps hc hin hr hv hoffer hop => ?_,
    fun i s t he hc => (exec_flagsCleared i he hc).1⟩
  obtain ⟨e, he⟩ := (decode_error_iff p.cmd).mpr hop
  have latched : (accept p { s with inputs := ps }).cmd = p.cmd := latchedCommand_held hv hoffer
  rw [step_accepts hc hin hr hv, runLatched_error (by rw [latched]; exact he)]
  exact ⟨_, rfl, rfl, rfl, rfl, rfl, ⟨rfl, rfl⟩, rfl⟩

/-- Settles O39: the accepted command is the latched one; a BUSY block runs it on. -/
theorem stepRunsTheDecodedCommand : Obligations.StepRunsTheDecodedCommand := by
  refine ⟨fun s p ps i hc hin hr hv hoffer hi => ?_, fun s i hb hi => ?_⟩
  · have latched : (accept p { s with inputs := ps }).cmd = p.cmd := latchedCommand_held hv hoffer
    refine ⟨accept p { s with inputs := ps }, ?_, ⟨rfl, rfl⟩, latched, rfl, rfl, rfl, ⟨rfl, rfl⟩, rfl, rfl⟩
    rw [step_accepts hc hin hr hv, runLatched_ok (by rw [latched]; exact hi)]
  · rw [step, hb]
    exact runLatched_ok hi

/-- A table word that is a command decodes to it. -/
theorem decode_of_decodeTableWord {nbits w : Nat} {i : Instr} (h : decodeTableWord nbits w = some i) :
    (Command.ofWord (BitVec.ofNat 68 (w % 2 ^ nbits))).decode = .ok i := by
  unfold decodeTableWord at h
  dsimp only at h
  split at h
  · split at h
    · next j hj =>
      obtain rfl : j = i := by simpa using h
      exact hj
    · cases h
  · cases h

/-- Settles O40: the offer that `withFetchWord` places is accepted by O39. -/
theorem offeredWordIsTheNextCommand : Obligations.OfferedWordIsTheNextCommand := by
  intro s nbits w i hw
  have hi := decode_of_decodeTableWord hw
  obtain ⟨accepts, -⟩ := stepRunsTheDecodedCommand
  obtain ⟨u, run, fresh, hcmd, hb, hrsp, hresponder, hkept, hin, hdue⟩ :=
    accepts (s.withFetchWord nbits w) (offerPins _) s.inputs i rfl rfl rfl rfl (.inl rfl) hi
  exact ⟨u, run, fresh, hb, by rw [hcmd]; exact hi, hrsp, hresponder, ⟨hkept.pos, hkept.hdr⟩, hin, hdue⟩

/-! ### Every step goes on -/

theorem runLatched_next (s : State) : ∃ t, runLatched s = .next t := by
  rcases runLatched_cases s with ⟨i, _, e⟩ | ⟨_, _, e⟩
  · exact ⟨_, e.trans (exec_next i s)⟩
  · exact ⟨_, e⟩

/-- Settles O35: the latched command answers a next state, and so does every edge. -/
theorem noStepStops : Obligations.NoStepStops := by
  intro s
  rcases step_cases s with
    ⟨_, e⟩ | ⟨_, _, e⟩ | ⟨p, ps, _, _, _, e⟩ | ⟨p, ps, _, _, _, _, e⟩ | ⟨p, ps, _, _, _, _, _, e⟩ |
      ⟨p, ps, _, _, _, _, e⟩ <;> rw [e]
  case inl | inr.inr.inr.inl => exact runLatched_next _
  all_goals exact ⟨_, rfl⟩

/-! ### A request under way, edge by edge -/

/-- A command with a request under way takes the first listed edge. -/
theorem exec_active_cons {i : Instr} {s : State} {p : Pins} {ps : List Pins} (hio : ioActive s.io = true)
    (hin : s.inputs = p :: ps) :
    exec i s = .next (runEdges (sequencerOf i) ps (busyEdge (sequencerOf i) p { s with ctrl := .busy })) := by
  rw [exec_eq_runCommand, runCommand_active hio, hin, runEdges_cons_busy rfl]

/-- An edge that leaves the request under way has only moved the command on to the state it leaves. -/
theorem exec_active_edge {i : Instr} {s u : State} {p : Pins} {ps : List Pins} (hio : ioActive s.io = true)
    (hin : s.inputs = p :: ps) (hedge : busyEdge (sequencerOf i) p { s with ctrl := .busy } = u)
    (hb : u.ctrl = .busy) (hu : ioActive u.io = true) : exec i s = exec i { u with inputs := ps } := by
  have busy : { u with inputs := ps, ctrl := .busy } = { u with inputs := ps } := by rw [← hb]
  rw [exec_active_cons hio hin, hedge, exec_eq_runCommand, runCommand_active (s := { u with inputs := ps }) hu, busy]
  exact congrArg Host.Outcome.next (runEdges_inputs i ps u ps).symm

/-- Settles O42: an idle edge and an edge of a waiting request only do the bookkeeping of `passEdge`. -/
theorem spuriousCompletionIsIgnored : Obligations.SpuriousCompletionIsIgnored := by
  refine ⟨fun s p ps hc hin hr hv => ?idle, fun i s p ps req ho hr hin => ?offered,
    fun i s p ps req ho hr hin hlate => ?outstanding⟩
  case idle => simp [step, hc, hin, idleEdge, hr, hv, passEdge]
  case offered =>
    have active : ioActive s.io = true := by simp [ho, ioActive]
    cases ready : p.ioReqReady with
    | false =>
      rw [exec_active_edge active hin (busyEdge_offered_waits (s := { s with ctrl := .busy }) hr ho ready) rfl active]
      simp [passEdge, ho]
    | true =>
      rw [exec_active_edge active hin (busyEdge_offered_ready (s := { s with ctrl := .busy }) hr ho ready) rfl rfl]
      simp [passEdge, issue]
  case outstanding =>
    have active : ioActive s.io = true := by simp [ho, ioActive]
    have others : ownCompletion p s.lateDue = false := by simp [ownCompletion, hlate]
    rw [exec_active_edge active hin (busyEdge_outstanding_waits (s := { s with ctrl := .busy }) hr ho others) rfl active]
    simp [passEdge, ho, lateAfter, hlate]

/-! ### The pins -/

/-- Settles O50: `outputs` is defined so. -/
theorem outputsShowTheRegisters : Obligations.OutputsShowTheRegisters := by
  intro rst s
  cases hc : s.ctrl <;> simp [outputs, hc]

/-- The request that the pins show while one is offered. -/
theorem ioReqValid_iff (s : State) : ioReqValid s = true ↔ ∃ req, s.io = .offered req := by
  unfold ioReqValid
  split <;> simp_all

/-- R50: the port of a legal request is one of the two. -/
theorem legalReq_port {req : IoReq} (h : legalReq req = true) : req.port = 0xCF8 ∨ req.port = 0xCFC := by
  cases req with
  | write port v =>
    simp only [legalReq, Bool.or_eq_true, Bool.and_eq_true, beq_iff_eq] at h
    exact h.imp And.left id
  | read port =>
    simp only [legalReq, beq_iff_eq] at h
    exact .inr h

/-- R36, R37: the pins show the offered request. -/
theorem outputs_of_offered {s : State} {req : IoReq} (ho : s.io = .offered req) (rst : Bool) :
    (outputs rst s).ioReqPort = req.port ∧
      (if (outputs rst s).ioReqWrite then IoReq.write (outputs rst s).ioReqPort (outputs rst s).ioReqWdata
        else .read (outputs rst s).ioReqPort) = req := by
  cases req <;> simp [outputs, ioReqPort, ioReqWrite, ioReqWdata, ho, IoReq.port]

/-- Where no request is offered, the free port is one of the two. -/
theorem ioReqPort_of_not_offered {s : State} (h : ∀ req, s.io ≠ .offered req) :
    ioReqPort s = 0xCF8 ∨ ioReqPort s = 0xCFC := by
  unfold ioReqPort
  split
  · exact absurd ‹_› (h _)
  · exact absurd ‹_› (h _)
  · split
    · exact .inr rfl
    · exact .inl rfl

/-- A request offered in `s` still waits in `t`, as it was offered. -/
def Waits (s t : State) : Prop :=
  t.io = s.io ∧ t.offeredAt = s.offeredAt

/-- Settles O51: the pins are functions of the offered request, and edges that do not accept it leave it as it was. -/
theorem requestPinsShowTheOfferedRequest : Obligations.RequestPinsShowTheOfferedRequest := by
  refine ⟨fun rst s h => ?shown, fun i s hv hq => ?held⟩
  case shown =>
    obtain ⟨-, hreq⟩ := (portInv_iff s).mp h
    by_cases ho : ∃ req, s.io = .offered req
    · obtain ⟨req, ho⟩ := ho
      obtain ⟨port, shown⟩ := outputs_of_offered ho rst
      dsimp only
      rw [shown, port]
      rw [ho] at hreq
      exact ⟨legalReq_port hreq, fun _ => ho, fun _ => (ioReqValid_iff s).mpr ⟨req, ho⟩⟩
    · refine ⟨ioReqPort_of_not_offered (not_exists.mp ho), fun hvalid => absurd ((ioReqValid_iff s).mp hvalid) ho,
        fun hio => absurd ⟨_, hio⟩ ho⟩
  case held =>
    obtain ⟨req, ho⟩ := (ioReqValid_iff s).mp hv
    have waits : Waits s (runEdges (sequencerOf i) s.inputs (start (sequencerOf i) s)) :=
      exec_keeps_over (P := Waits s) (Q := fun p => p.rst = false ∧ p.ioReqReady = false) i
        (hin := fun _ _ h => h)
        (hreset := fun _ _ hp reset _ => by simp [hp.1] at reset)
        (hpass := fun _ _ _ h => h)
        (hissue := fun _ _ _ hp ready _ _ => by simp [hp.2] at ready)
        (hcomplete := fun _ _ _ _ _ _ issued h => by simp [h.1, ho] at issued)
        hq (by rw [start_active (by simp [ho, ioActive])]; exact ⟨rfl, rfl⟩) (exec_next i s)
    obtain ⟨hio, hat⟩ := waits
    refine ⟨_, exec_next i s, ?_⟩
    simp only [ioReqValid, ioReqWrite, ioReqPort, ioReqWdata, hio, hat, ho, true_and]
    cases req <;> simp

/-! ### The reset state -/

/-- Settles O46: by computation. -/
theorem resetStateHasTheResetValues : Obligations.ResetStateHasTheResetValues := by
  unfold Obligations.ResetStateHasTheResetValues
  decide

/-- Settles O56: by computation. -/
theorem resetHasTheInvariants : Obligations.ResetHasTheInvariants := by
  unfold Obligations.ResetHasTheInvariants
  decide

/-- Settles O49: the registers that ENUM_INIT writes are those of the reset state. -/
theorem resetIsTheInitState : Obligations.ResetIsTheInitState := by
  intro s t hio he
  rw [exec_enumInit hio] at he
  cases he
  exact ⟨rfl, rfl⟩

end Sys2Proof.Machine
end

section
/-!
PROOFS. Reset: what an edge with rst = 1 leaves of the block, O47, and of the responder, O48 and O58, in every control
state and in the middle of a command. A command that ends IDLE is cut at its reset edge once, for both statements.
-/

namespace Sys2Proof.Machine

/-! ### What an abort records -/

theorem abortsNothing {p : Pins} {s : State} (h : abortedReq p s = none) : AbortsNothing p s :=
  ⟨by simp [abortIo, h], by simp [lateAfterReset, h]⟩

/-- A write that takes effect leaves the latch, or the address that it writes there (R59). -/
theorem takeWrite_latch (r : Responder) (req : IoReq) :
    (r.takeWrite req).latch = r.latch ∨ req = .write Config.addrPort (r.takeWrite req).latch := by
  cases req with
  | read => exact .inl rfl
  | write port v =>
    by_cases hport : port = Config.addrPort
    · exact .inr (by simp [Responder.takeWrite, hport])
    · exact .inl (by simp [Responder.takeWrite, hport])

theorem abortRecords {p : Pins} {s : State} {req : IoReq} (h : abortedReq p s = some req) : AbortRecords p s req := by
  refine ⟨txnOf req s.responder.latch (.aborted (Config.abortedTakesEffect s.tick)),
    Config.abortedTakesEffect s.tick, by simp [abortIo, h], rfl, rfl, ?_⟩
  cases took : Config.abortedTakesEffect s.tick with
  | false => exact .inl (by simp [abortIo, h, took])
  | true => simpa [abortIo, h, took] using takeWrite_latch s.responder req

/-- An own completion is no late one, so it leaves what is due. -/
theorem lateAfter_of_ownCompletion {p : Pins} {due : Nat} (h : ownCompletion p due = true) : lateAfter p due = due := by
  simp only [ownCompletion, Bool.and_eq_true, Bool.not_eq_true'] at h
  simp [lateAfter, h.2]

/-- Settles O48: the three phases of the request under way. -/
theorem abortRecordsTheIssuedTransaction : Obligations.AbortRecordsTheIssuedTransaction := by
  refine fun p s => ⟨fun hissued hoffered => ?nothing, fun req ho => ?issued, fun req ho => ?offered⟩
  case nothing =>
    apply abortsNothing
    cases hio : s.io with
    | quiet => simp [abortedReq, hio]
    | offered req => simp [abortedReq, hio, hoffered req hio]
    | outstanding req => exact absurd hio (hissued req)
  case issued =>
    have aborted : abortedReq p s = some req := by simp [abortedReq, ho]
    refine ⟨abortRecords aborted, fun waits => ?_, fun done => ?_⟩
    · simp [lateAfterReset, aborted, completesNow, ho, waits]
    · simp [lateAfterReset, aborted, completesNow, ho, done, lateAfter_of_ownCompletion done]
  case offered =>
    cases aborted : abortedReq p s with
    | none => exact .inl (abortsNothing aborted)
    | some req' =>
      obtain rfl : req = req' := by simpa [ho] using io_of_abortedReq aborted
      exact .inr ⟨abortRecords aborted, by simp [lateAfterReset, aborted, completesNow, ho]⟩

/-! ### A reset edge at the start of a step -/

/-- R206, R220: reset wins in every control state. A BUSY block has a request under way and an assigned command. -/
theorem step_reset {s : State} {p : Pins} {ps : List Pins} (hin : s.inputs = p :: ps) (hr : p.rst = true)
    (hbusy : s.ctrl = .busy → ioActive s.io = true ∧ ∃ i, s.cmd.decode = .ok i) :
    step s = .next { resetEdge p s with inputs := ps } := by
  cases hc : s.ctrl with
  | idle =>
    simp only [step, hc, hin, idleEdge, hr, if_true]
    rfl
  | resp =>
    simp only [step, hc, hin, respEdge, hr, if_true]
    rfl
  | busy =>
    obtain ⟨hio, i, hi⟩ := hbusy hc
    simp only [step, hc]
    rw [runLatched_ok hi, exec_active_cons hio hin, busyEdge_reset hr, runEdges_done (by simp)]
    rfl

theorem atReset_resetEdge (p : Pins) (s : State) (ps : List Pins) : AtReset { resetEdge p s with inputs := ps } :=
  ⟨rfl, rfl, rfl, rfl, rfl⟩

/-! ### A reset edge in the middle of a command -/

/-- Only a reset edge makes a BUSY block IDLE. -/
theorem busyEdge_ctrl_ne_idle (i : Instr) {p : Pins} {s : State} (hr : p.rst = false) (hb : s.ctrl = .busy) :
    (busyEdge (sequencerOf i) p s).ctrl ≠ .idle := by
  rcases busyEdge_cases (seq := sequencerOf i) p s with
    ⟨reset, _⟩ | ⟨_, e, _⟩ | ⟨req, _, _, _, e⟩ | ⟨req, _, _, _, e⟩
  · simp [hr] at reset
  · simp [e, hb]
  · simp [e, hb]
  · rw [e]
    exact (sequencerOf_move i _).ctrl_ne_idle (by simp [hb])

theorem start_ctrl_ne_idle (i : Instr) (s : State) : (start (sequencerOf i) s).ctrl ≠ .idle := by
  rcases start_cases (sequencerOf i) s with ⟨_, e⟩ | ⟨_, e⟩ <;> rw [e]
  · exact (sequencerOf_move i _).ctrl_ne_idle (by simp)
  · simp

/-- A run that ends IDLE was BUSY up to its reset edge. -/
theorem runEdges_idle (i : Instr) : ∀ (ps : List Pins) (s : State), s.ctrl ≠ .idle →
    (runEdges (sequencerOf i) ps s).ctrl = .idle →
      ∃ before p after, ps = before ++ p :: after ∧ noReset before ∧ p.rst = true ∧
        (runEdges (sequencerOf i) before s).ctrl = .busy ∧
        runEdges (sequencerOf i) ps s = { resetEdge p (runEdges (sequencerOf i) before s) with inputs := after }
  | [], s, hs, hidle => absurd hidle hs
  | p :: ps, s, hs, hidle => by
    by_cases hb : s.ctrl = .busy
    · rw [runEdges_cons_busy hb] at hidle ⊢
      cases hr : p.rst with
      | true =>
        refine ⟨[], p, ps, rfl, List.forall_mem_nil _, hr, hb, ?_⟩
        rw [busyEdge_reset hr, runEdges_done (by simp)]
        rfl
      | false =>
        obtain ⟨before, q, after, rfl, hbefore, hq, hbusy, e⟩ :=
          runEdges_idle i ps _ (busyEdge_ctrl_ne_idle i hr hb) hidle
        refine ⟨p :: before, q, after, rfl, List.forall_mem_cons.mpr ⟨hr, hbefore⟩, hq, ?_⟩
        rw [runEdges_cons_busy hb]
        exact ⟨hbusy, e⟩
    · rw [runEdges_done hb] at hidle
      exact absurd hidle hs

/-- R220, R221: a command that ends IDLE was BUSY over the edges before its reset edge. -/
theorem exec_idle {i : Instr} {s t : State} (he : exec i s = .next t) (hidle : t.ctrl = .idle) :
    ∃ before p u, s.inputs = before ++ p :: t.inputs ∧ noReset before ∧ p.rst = true ∧
      exec i { s with inputs := before } = .next u ∧ u.ctrl = .busy ∧
      t = { resetEdge p u with inputs := t.inputs } := by
  rw [exec_next] at he
  cases he
  obtain ⟨before, p, after, hps, hbefore, hp, hbusy, e⟩ := runEdges_idle i _ _ (start_ctrl_ne_idle i s) hidle
  have inputs := congrArg State.inputs e
  refine ⟨before, p, _, ?_, hbefore, hp, exec_inputs i s before, hbusy, ?_⟩
  · rw [inputs]
    exact hps
  · rw [inputs]
    exact e

/-- Settles O47: the reset edge is taken by `step_reset`, or cut out of the run by `exec_idle`. -/
theorem resetEdgeRestoresEveryRegister : Obligations.ResetEdgeRestoresEveryRegister := by
  refine ⟨fun s p ps hin hr hbusy => ?_, fun i s t he hidle => ?_⟩
  · exact ⟨_, step_reset hin hr hbusy, atReset_resetEdge p s ps, rfl, rfl, rfl, rfl, rfl⟩
  · obtain ⟨before, p, u, hin, hbefore, hp, run, hu, e⟩ := exec_idle he hidle
    refine ⟨?_, before, p, u, hin, hbefore, hp, run, hu⟩
    rw [e]
    exact atReset_resetEdge p u _

/-! ### What a command without reset adds to the history -/

/-- `t` has the history of `s` and after it only completed transactions. -/
def AddsCompleted (s t : State) : Prop :=
  ∃ done, t.responder.history = s.responder.history ++ done ∧ ∀ x ∈ done, x.completed = true

theorem AddsCompleted.of_responder_eq {s t : State} (h : t.responder = s.responder) : AddsCompleted s t :=
  ⟨[], by simp [h], List.forall_mem_nil _⟩

theorem AddsCompleted.trans {s t u : State} (hst : AddsCompleted s t) (htu : AddsCompleted t u) :
    AddsCompleted s u := by
  obtain ⟨xs, hxs, cxs⟩ := hst
  obtain ⟨ys, hys, cys⟩ := htu
  exact ⟨xs ++ ys, by rw [hys, hxs, List.append_assoc], List.forall_mem_append.mpr ⟨cxs, cys⟩⟩

theorem addsCompleted_complete (p : Pins) (req : IoReq) (v : Dword) (s : State) :
    AddsCompleted s (complete req v (passEdge p s)) :=
  ⟨[txnOf req s.responder.latch (req.ending v)], rfl,
    List.forall_mem_singleton.mpr (EndedWith.completed ⟨req, rfl⟩)⟩

/-- R221: without a reset nothing is aborted. -/
theorem exec_addsCompleted {i : Instr} {s t : State} (hr : noReset s.inputs) (he : exec i s = .next t) :
    AddsCompleted s t := by
  have move (u : State) (h : AddsCompleted s u) : AddsCompleted s (sequencerOf i u) :=
    h.trans (.of_responder_eq (sequencerOf_move i u).responder)
  exact exec_keeps_over (P := AddsCompleted s) (Q := fun p => p.rst = false) i
    (hin := fun _ _ h => h)
    (hreset := fun _ _ hp reset _ => by simp [hp] at reset)
    (hpass := fun _ _ _ h => h)
    (hissue := fun _ _ _ _ _ _ h => h)
    (hcomplete := fun p u req v _ _ _ h => move _ (h.trans (addsCompleted_complete p req v u)))
    hr (start_keeps (P := AddsCompleted s) (fun _ _ h => h) move (.of_responder_eq rfl)) he

/-- Settles O58: the same cut, with the responder's part of the reset edge. -/
theorem resetEdgeAbortsAtTheResponder : Obligations.ResetEdgeAbortsAtTheResponder := by
  refine ⟨fun s p ps hin hr hbusy => ⟨_, step_reset hin hr hbusy, rfl, rfl⟩, fun i s t he hidle => ?_⟩
  obtain ⟨before, p, u, hin, hbefore, hp, run, hu, e⟩ := exec_idle he hidle
  obtain ⟨done, hdone, completed⟩ := exec_addsCompleted (s := { s with inputs := before }) hbefore run
  refine ⟨before, p, u, done, hin, hbefore, hp, run, hu, hdone, completed, ?_, ?_⟩
  · rw [e]
    rfl
  · rw [e]
    rfl

end Sys2Proof.Machine
end

section
/-!
PROOFS. Two runs of one command side by side: the narrow reads (O13), edges that differ in the command pins (O44) and an
address latch that held something else (O45). Each move commutes with what the runs differ in, so the induction over
the edges carries the difference along.
-/

namespace Sys2Proof.Machine

/-! ### Narrow reads -/

/-- `w` is `t` but for RSP_DATA. -/
def AgreeButData (t w : State) : Prop :=
  { w with rsp := { w.rsp with data := t.rsp.data } } = t

section

variable (bus dev fn off : Byte) (f g : Dword → Dword)

/-- The sequencer of a read that answers `f` of the dword read. -/
def readSeq (f : Dword → Dword) : State → State :=
  cfgReadDword bus dev fn off fun v => respond (f v) false false

/-- Two reads of one dword make the same moves, but for what they answer. -/
theorem runEdges_readSeq_move {ps : List Pins}
    (run : ∀ u : State,
      AgreeButData (runEdges (readSeq bus dev fn off f) ps u) (runEdges (readSeq bus dev fn off g) ps u))
    (s : State) :
    AgreeButData (runEdges (readSeq bus dev fn off f) ps (readSeq bus dev fn off f s))
      (runEdges (readSeq bus dev fn off g) ps (readSeq bus dev fn off g s)) := by
  rcases hindex : s.temps.txnIndex with _ | _ | n
  · have same : readSeq bus dev fn off f s = readSeq bus dev fn off g s := by simp [readSeq, cfgReadDword, hindex]
    rw [same]
    exact run _
  · have same : readSeq bus dev fn off f s = readSeq bus dev fn off g s := by simp [readSeq, cfgReadDword, hindex]
    rw [same]
    exact run _
  · have answer (h : Dword → Dword) : readSeq bus dev fn off h s = respond (h s.temps.lastRead) false false s := by
      simp [readSeq, cfgReadDword, hindex]
    rw [answer, answer, runEdges_done (by simp), runEdges_done (by simp)]
    rfl

theorem runEdges_readSeq : ∀ (ps : List Pins) (s : State),
    AgreeButData (runEdges (readSeq bus dev fn off f) ps s) (runEdges (readSeq bus dev fn off g) ps s)
  | [], _ => rfl
  | p :: ps, s => by
    have run := runEdges_readSeq ps
    by_cases hb : s.ctrl = .busy
    · rw [runEdges_cons_busy hb, runEdges_cons_busy hb]
      rcases busyEdge_of_two (readSeq bus dev fn off f) (readSeq bus dev fn off g) p s with same | ⟨u, e, e'⟩
      · rw [same]
        exact run _
      · rw [e, e']
        exact runEdges_readSeq_move bus dev fn off f g run u
    · rw [runEdges_done hb, runEdges_done hb]
      rfl

/-- R116: whatever the edges do, the two reads end alike but for RSP_DATA. -/
theorem runCommand_readSeq {s t w : State} (ht : runCommand (readSeq bus dev fn off f) s = .next t)
    (hw : runCommand (readSeq bus dev fn off g) s = .next w) : AgreeButData t w := by
  cases ht
  cases hw
  have run := runEdges_readSeq bus dev fn off f g s.inputs
  rcases start_cases (readSeq bus dev fn off f) s with ⟨hio, _⟩ | ⟨hio, _⟩
  · rw [start_quiet hio, start_quiet hio]
    exact runEdges_readSeq_move bus dev fn off f g run _
  · rw [start_active hio, start_active hio]
    exact run _

end

/-- Settles O13: RD_WORD and RD_BYTE are the dword read with another answer. -/
theorem narrowReadsMakeTheDwordTransactions : Obligations.NarrowReadsMakeTheDwordTransactions :=
  fun bus dev fn off _ _ _ _ ht hw hb =>
    ⟨runCommand_readSeq bus dev fn off id (wordOf · off) ht hw,
      runCommand_readSeq bus dev fn off id (byteOf · off) ht hb⟩

/-! ### What no sequencer reads -/

/-- The state with its waiting offer and its responder changed. -/
def withSurroundings (o : CmdOffer → CmdOffer) (r : Responder → Responder) (s : State) : State :=
  { s with cmdOffer := o s.cmdOffer, responder := r s.responder }

section

variable (o : CmdOffer → CmdOffer) (r : Responder → Responder) (s : State)

theorem enumRound_surroundings : enumRound (withSurroundings o r s) = withSurroundings o r (enumRound s) := by
  unfold enumRound withSurroundings
  dsimp only
  split <;> rfl

theorem probeDone_surroundings : probeDone (withSurroundings o r s) = withSurroundings o r (probeDone s) := by
  cases h : present (probedHeader s) with
  | true =>
    rw [probeDone_present h, probeDone_present (s := withSurroundings o r s) h]
    rfl
  | false =>
    rw [probeDone_absent h, probeDone_absent (s := withSurroundings o r s) h]
    exact enumRound_surroundings o r { s with hdr := probedHeader s }

/-- No sequencer reads or writes the waiting offer or the responder. -/
theorem sequencerOf_surroundings (i : Instr) :
    sequencerOf i (withSurroundings o r s) = withSurroundings o r (sequencerOf i s) := by
  cases i with
  | encodeAddr | enumInit => rfl
  | rdDword | rdWord | rdByte | rdBar =>
    simp only [sequencerOf, cfgReadDword, withSurroundings]
    rcases s.temps.txnIndex with _ | _ | n <;> rfl
  | wrDword | wrBar =>
    simp only [sequencerOf, cfgWriteDword, withSurroundings]
    rcases s.temps.txnIndex with _ | _ | n <;> rfl
  | enumNext =>
    simp only [sequencerOf]
    rcases enumNextSeq_cases s with ⟨index, e⟩ | ⟨index, e⟩ | ⟨index, e⟩ | ⟨index, e⟩ | ⟨index, e⟩ <;> rw [e]
    · rw [enumNextSeq_first (s := withSurroundings o r s) index]
      exact enumRound_surroundings o r s
    · exact enumNextSeq_dataRead (s := withSurroundings o r s) index
    · exact enumNextSeq_third (s := withSurroundings o r s) index
    · exact enumNextSeq_fifth (s := withSurroundings o r s) index
    · rw [enumNextSeq_probed (s := withSurroundings o r s) index]
      exact probeDone_surroundings o r { s with temps := { s.temps with probeD3 := s.temps.lastRead } }

end

/-! ### The command pins -/

/-- The pins of an edge with other command pins, and another rsp_ready. -/
def Pins.withCommand (p q : Pins) : Pins :=
  { p with cmdValid := q.cmdValid, cmd := q.cmd, rspReady := q.rspReady }

/-- The state with another waiting offer. -/
def withOffered (o : CmdOffer) (s : State) : State :=
  { s with cmdOffer := o }

/-- An edge of a BUSY block takes the same move whatever the command pins are; only the offer watched differs. -/
theorem busyEdge_withCommand (i : Instr) (p q : Pins) (o : CmdOffer) (s : State) :
    ∃ o', busyEdge (sequencerOf i) (p.withCommand q) (withOffered o s) =
      withOffered o' (busyEdge (sequencerOf i) p s) := by
  have pass : passEdge (p.withCommand q) (withOffered o s) =
      withOffered (o.watch (p.withCommand q)) (passEdge p s) := rfl
  cases hr : p.rst with
  | true => exact ⟨.nothing, by rw [busyEdge_reset hr, busyEdge_reset (p := p.withCommand q) hr]; rfl⟩
  | false =>
    refine ⟨o.watch (p.withCommand q), ?_⟩
    rcases hio : s.io with _ | req | req
    · rw [busyEdge_quiet hr hio, busyEdge_quiet (p := p.withCommand q) (s := withOffered o s) hr hio, pass]
    · cases ready : p.ioReqReady with
      | false =>
        rw [busyEdge_offered_waits hr hio ready,
          busyEdge_offered_waits (p := p.withCommand q) (s := withOffered o s) hr hio ready, pass]
      | true =>
        rw [busyEdge_offered_ready hr hio ready,
          busyEdge_offered_ready (p := p.withCommand q) (s := withOffered o s) hr hio ready, pass]
        rfl
    · cases done : ownCompletion p s.lateDue with
      | false =>
        rw [busyEdge_outstanding_waits hr hio done,
          busyEdge_outstanding_waits (p := p.withCommand q) (s := withOffered o s) hr hio done, pass]
      | true =>
        rw [busyEdge_outstanding_done hr hio done,
          busyEdge_outstanding_done (p := p.withCommand q) (s := withOffered o s) hr hio done, pass]
        exact sequencerOf_surroundings (fun _ => o.watch (p.withCommand q)) id
          (complete req p.ioRspRdata (passEdge p s)) i

/-- Two edges that agree on reset and the I/O pins differ in the command pins. -/
theorem withCommand_of_same {p q : Pins} (h : p.rst = q.rst ∧ p.ioReqReady = q.ioReqReady ∧
    p.ioRspValid = q.ioRspValid ∧ p.ioRspRdata = q.ioRspRdata ∧ p.ioRspLate = q.ioRspLate) :
    p.withCommand q = q := by
  obtain ⟨hrst, hready, hvalid, hrdata, hlate⟩ := h
  simp only [Pins.withCommand, hrst, hready, hvalid, hrdata, hlate]

/-- The same over a whole run. -/
theorem runEdges_withCommand (i : Instr) {ps qs : List Pins} (h : List.Forall₂ (fun p q => p.withCommand q = q) ps qs) :
    ∀ (o : CmdOffer) (s : State), ∃ o' rest, runEdges (sequencerOf i) qs (withOffered o s) =
      { withOffered o' (runEdges (sequencerOf i) ps s) with inputs := rest } := by
  induction h with
  | nil => exact fun o s => ⟨o, [], rfl⟩
  | @cons p q ps qs hpq _ ih =>
    intro o s
    by_cases hb : s.ctrl = .busy
    · obtain ⟨o', e⟩ := busyEdge_withCommand i p q o s
      rw [runEdges_cons_busy hb, runEdges_cons_busy (s := withOffered o s) hb, ← hpq, e]
      exact ih o' _
    · refine ⟨o, q :: qs, ?_⟩
      rw [runEdges_done hb, runEdges_done (s := withOffered o s) hb]
      rfl

/-- Settles O44: over edges that differ in the command pins, each edge leaves states that differ in the watched offer. -/
theorem commandPinsHaveNoEffectWhileBusy : Obligations.CommandPinsHaveNoEffectWhileBusy := by
  intro i s qs h
  have agree : List.Forall₂ (fun p q => p.withCommand q = q) s.inputs qs := h.imp fun _ _ => withCommand_of_same
  obtain ⟨o, rest, e⟩ := runEdges_withCommand i agree (start (sequencerOf i) s).cmdOffer (start (sequencerOf i) s)
  refine ⟨_, _, exec_next i s, exec_inputs i s qs, ?_⟩
  have run : runEdges (sequencerOf i) qs (start (sequencerOf i) s) = _ := e
  rw [run]
  rfl

/-! ### The old address latch -/

/-- The state with another value in the platform's address latch. -/
def withLatch (a : Dword) (s : State) : State :=
  { s with responder := { s.responder with latch := a } }

/-- An address write is offered or issued, so that what the latch held is about to be overwritten. -/
def WritesLatch (s : State) : Prop :=
  ∃ v, s.io = .offered (.write Config.addrPort v) ∨ s.io = .outstanding (.write Config.addrPort v)

/-- What a reset aborts then is that address write, or nothing. -/
theorem WritesLatch.abortedReq {s : State} (h : WritesLatch s) (p : Pins) :
    abortedReq p s = none ∨ ∃ v, abortedReq p s = some (.write Config.addrPort v) := by
  obtain ⟨v, ho | ho⟩ := h
  · cases issued : p.ioReqReady && Config.resetEdgeIssues s.tick with
    | false => exact .inl (by simp [Machine.abortedReq, ho, issued])
    | true => exact .inr ⟨v, by simp [Machine.abortedReq, ho, issued]⟩
  · exact .inr ⟨v, by simp [Machine.abortedReq, ho]⟩

/-- An address write names no target, so an aborted one leaves the same history, whatever the latch held. -/
theorem abortIo_withLatch {s : State} (h : WritesLatch s) (p : Pins) (a : Dword) :
    ∃ b, abortIo p (withLatch a s) = { abortIo p s with latch := b } := by
  have same : abortedReq p (withLatch a s) = abortedReq p s := rfl
  rcases h.abortedReq p with nothing | ⟨v, write⟩
  · exact ⟨a, by rw [abortIo, abortIo, same, nothing]; rfl⟩
  · have tick : (withLatch a s).tick = s.tick := rfl
    cases took : Config.abortedTakesEffect s.tick with
    | false => exact ⟨a, by rw [abortIo, abortIo, same, write, tick, took]; rfl⟩
    | true => exact ⟨v, by rw [abortIo, abortIo, same, write, tick, took]; rfl⟩

theorem resetEdge_withLatch {s : State} (h : WritesLatch s) (p : Pins) (a : Dword) :
    ∃ b, resetEdge p (withLatch a s) = withLatch b (resetEdge p s) := by
  obtain ⟨b, e⟩ := abortIo_withLatch h p a
  refine ⟨b, ?_⟩
  rw [resetEdge, e]
  rfl

/-- A completed one leaves the same state. -/
theorem complete_withLatch (v w a : Dword) (s : State) :
    complete (.write Config.addrPort v) w (withLatch a s) = complete (.write Config.addrPort v) w s := by
  rfl

/-- Until its address write has completed, the runs differ in the latch; then they are one. -/
theorem runEdges_withLatch (i : Instr) : ∀ (ps : List Pins) (s : State) (a : Dword),
    WritesLatch s ∨ s.ctrl ≠ .busy →
    ∃ b, runEdges (sequencerOf i) ps (withLatch a s) = withLatch b (runEdges (sequencerOf i) ps s)
  | [], s, a, _ => ⟨a, rfl⟩
  | p :: ps, s, a, h => by
    by_cases hb : s.ctrl = .busy
    · have writes := h.resolve_right (not_not.mpr hb)
      rw [runEdges_cons_busy hb, runEdges_cons_busy (s := withLatch a s) hb]
      cases hr : p.rst with
      | true =>
        obtain ⟨b, e⟩ := resetEdge_withLatch writes p a
        rw [busyEdge_reset hr, busyEdge_reset hr, e]
        exact runEdges_withLatch i ps _ b (.inr (by simp))
      | false =>
        obtain ⟨v, ho | ho⟩ := writes
        · cases ready : p.ioReqReady with
          | false =>
            rw [busyEdge_offered_waits hr ho ready, busyEdge_offered_waits (s := withLatch a s) hr ho ready]
            exact runEdges_withLatch i ps (passEdge p s) a (.inl ⟨v, .inl ho⟩)
          | true =>
            rw [busyEdge_offered_ready hr ho ready, busyEdge_offered_ready (s := withLatch a s) hr ho ready]
            exact runEdges_withLatch i ps (issue _ (passEdge p s)) a (.inl ⟨v, .inr rfl⟩)
        · cases done : ownCompletion p s.lateDue with
          | false =>
            rw [busyEdge_outstanding_waits hr ho done, busyEdge_outstanding_waits (s := withLatch a s) hr ho done]
            exact runEdges_withLatch i ps (passEdge p s) a (.inl ⟨v, .inr ho⟩)
          | true =>
            rw [busyEdge_outstanding_done hr ho done, busyEdge_outstanding_done (s := withLatch a s) hr ho done]
            have same : passEdge p (withLatch a s) = withLatch a (passEdge p s) := rfl
            rw [same, complete_withLatch]
            exact ⟨_, rfl⟩
    · refine ⟨a, ?_⟩
      rw [runEdges_done hb, runEdges_done (s := withLatch a s) hb]
      rfl

/-- The first move of a command offers an address write or responds. -/
theorem sequencerOf_first (i : Instr) {s : State} (hindex : s.temps.txnIndex = 0) :
    WritesLatch (sequencerOf i s) ∨ (sequencerOf i s).ctrl ≠ .busy := by
  by_cases hnext : i = .enumNext
  · subst hnext
    rw [sequencerOf, enumNextSeq_first hindex]
    rcases enumRound_cases s with ⟨_, e⟩ | ⟨_, e⟩ <;> rw [e]
    · exact .inr (by simp)
    · exact .inl ⟨_, .inl rfl⟩
  by_cases hinit : i = .enumInit
  · subst hinit
    exact .inr (by simp [sequencerOf])
  rcases sequencerOf_accessMove hinit hnext s with ⟨_, _, _, _, _, e⟩ | ⟨index, _⟩ | ⟨_, e⟩
  · exact .inl ⟨_, .inl (by rw [e]; rfl)⟩
  · omega
  · exact .inr (by simp [e])

/-- Settles O45: a command begins with its address write or its response, so no data access sees the old latch. -/
theorem oldLatchReachesNoResult : Obligations.OldLatchReachesNoResult := by
  intro i s a ⟨hio, hindex⟩
  have first : start (sequencerOf i) (withLatch a s) = withLatch a (start (sequencerOf i) s) :=
    start_commutes (f := withLatch a) (fun _ => rfl) (fun _ => rfl)
      (fun s => sequencerOf_surroundings id (fun r => { r with latch := a }) s i) s
  obtain ⟨b, e⟩ := runEdges_withLatch i s.inputs (start (sequencerOf i) s) a (by
    rw [start_quiet hio]
    exact sequencerOf_first i (s := { s with ctrl := .busy }) hindex)
  refine ⟨_, _, exec_next i s, exec_next i (withLatch a s), ?_⟩
  rw [first]
  have run : runEdges (sequencerOf i) (withLatch a s).inputs (withLatch a (start (sequencerOf i) s)) = _ := e
  rw [run]
  rfl

end Sys2Proof.Machine
end

section
/-!
PROOFS. Edges that do not serve a command's next requests: the command has not responded, and what it added to the
history are those requests, as far as it came, a reset's abort among them.
-/

namespace Sys2Proof.Machine

/-! ### Served transactions -/

/-- Serving `m + n` transactions is serving `m` and then `n`. -/
theorem served_add {n : Nat} : ∀ {m due due' : Nat} {ps rest : List Pins} {vs : List Dword},
    served (m + n) due ps = some (vs, due', rest) →
      ∃ xs ys d qs, vs = xs ++ ys ∧ served m due ps = some (xs, d, qs) ∧ served n d qs = some (ys, due', rest)
  | 0, due, _, ps, _, vs, h => ⟨[], vs, due, ps, rfl, rfl, by simpa using h⟩
  | m + 1, due, due', ps, rest, vs, h => by
    rw [Nat.add_right_comm] at h
    cases first : servedOne false due ps with
    | none => simp [served, first] at h
    | some answer =>
      obtain ⟨v, d, qs⟩ := answer
      rw [served_of_servedOne first] at h
      obtain ⟨⟨ws, d', r⟩, later, e⟩ := Option.map_eq_some_iff.mp h
      cases e
      obtain ⟨xs, ys, d'', qs', rfl, hxs, hys⟩ := served_add later
      exact ⟨v :: xs, ys, d'', qs', rfl, by rw [served_of_servedOne first, hxs]; rfl, hys⟩

theorem served_length : ∀ {n due due' : Nat} {ps rest : List Pins} {vs : List Dword},
    served n due ps = some (vs, due', rest) → vs.length = n
  | 0, _, _, _, _, _, h => by
    cases h
    rfl
  | n + 1, due, _, ps, _, _, h => by
    cases first : servedOne false due ps with
    | none => simp [served, first] at h
    | some answer =>
      obtain ⟨v, d, qs⟩ := answer
      rw [served_of_servedOne first] at h
      obtain ⟨⟨ws, d', r⟩, later, e⟩ := Option.map_eq_some_iff.mp h
      cases e
      rw [List.length_cons, served_length later]

/-! ### A command that the edges cut short -/

/-- `t` is where a command begun in `s` has not responded: it waits, or a reset ended it. What it added to the history
are the first of the requests `reqs`. -/
structure CutShort (s t : State) (reqs : List IoReq) : Prop where
  ctrl : t.ctrl ≠ .resp
  history : ∃ new, t.responder.history = s.responder.history ++ new ∧ new.map (·.req) <+: reqs

theorem CutShort.of_history_eq {s s' t : State} {reqs : List IoReq} (h : CutShort s t reqs)
    (hs : s.responder.history = s'.responder.history) : CutShort s' t reqs :=
  ⟨h.ctrl, hs ▸ h.history⟩

/-- The requests that completed before come first. -/
theorem CutShort.cons {s u t : State} {x : IoTxn} {reqs : List IoReq} (h : CutShort u t reqs)
    (hu : u.responder.history = s.responder.history ++ [x]) : CutShort s t (x.req :: reqs) := by
  obtain ⟨new, happend, first⟩ := h.history
  exact ⟨h.ctrl, x :: new, by rw [happend, hu, List.append_assoc]; rfl, List.cons_prefix_cons.mpr ⟨rfl, first⟩⟩

/-- What a reset adds is the request under way, or nothing. -/
theorem abortIo_requests {p : Pins} {s : State} {req : IoReq} (hio : s.io = .offered req ∨ s.io = .outstanding req) :
    ∃ new, (abortIo p s).history = s.responder.history ++ new ∧ new.map (·.req) <+: [req] := by
  cases aborted : abortedReq p s with
  | none => exact ⟨[], by simp [abortIo, aborted], List.nil_prefix⟩
  | some req' =>
    have same : req' = req := by
      rcases hio with ho | ho <;> simpa [ho, eq_comm] using io_of_abortedReq aborted
    exact ⟨[txnOf req' s.responder.latch _], by simp [abortIo, aborted]; rfl, by rw [same]; exact List.prefix_rfl⟩

/-- A request under way that the edges do not serve. -/
theorem runEdges_cutShort_one {seq : State → State} {req : IoReq} : ∀ (ps : List Pins) (s : State),
    s.ctrl = .busy →
    s.io = .offered req ∨ s.io = .outstanding req → servedOne s.io.issued s.lateDue ps = none →
      CutShort s (runEdges seq ps s) [req]
  | [], s, hb, _, _ => ⟨by simp [runEdges_nil, hb], [], by simp [runEdges_nil], List.nil_prefix⟩
  | p :: ps, s, hb, hio, hnone => by
    rw [runEdges_cons_busy hb]
    cases hr : p.rst with
    | true =>
      rw [busyEdge_reset hr, runEdges_done (by simp)]
      exact ⟨by simp, abortIo_requests hio⟩
    | false =>
      have active : ioActive s.io = true := by
        rcases hio with ho | ho <;> simp [ho, ioActive]
      obtain ⟨edge, later⟩ := busyEdge_stalled (seq := seq) hr hb active hnone
      have under : (busyEdge seq p s).io = .offered req ∨ (busyEdge seq p s).io = .outstanding req := by
        rcases busyEdge_cases (seq := seq) p s with ⟨reset, _⟩ | ⟨_, e, _⟩ | ⟨_, _, ho, _, e⟩ | ⟨_, _, ho, done, _⟩
        · simp [hr] at reset
        · rwa [e]
        · rw [e]
          simpa [ho] using hio
        · simp [servedOne, IoPhase.issued, hr, ho, done] at hnone
      exact (runEdges_cutShort_one ps _ edge.ctrl under later).of_history_eq (by rw [edge.responder])

/-- The sequencer offers these requests one after another from transaction `k` on, wherever the enumerator is at `pos`,
and changes only temporaries with them. -/
def OffersAll (seq : State → State) (pos : Position) : Nat → List IoReq → Prop
  | _, [] => True
  | k, req :: reqs =>
    (∀ t : State, t.pos = pos → t.temps.txnIndex = k →
      ∃ temps, temps.txnIndex = k ∧ seq t = offer req { t with temps }) ∧ OffersAll seq pos (k + 1) reqs

/-- A request just offered, and others after it, that the edges do not serve in full. -/
theorem runEdges_cutShort {seq : State → State} : ∀ (reqs : List IoReq) (req : IoReq) (ps : List Pins) (s : State)
    (temps : Temps), s.ctrl = .busy → OffersAll seq s.pos (temps.txnIndex + 1) reqs →
      served (reqs.length + 1) s.lateDue ps = none →
        CutShort s (runEdges seq ps (offer req { s with temps })) (req :: reqs) := by
  intro reqs
  induction reqs with
  | nil =>
    intro req ps s temps hb _ hnone
    have unserved : servedOne false s.lateDue ps = none := by
      cases first : servedOne false s.lateDue ps with
      | none => rfl
      | some answer => simp [served, first] at hnone
    exact (runEdges_cutShort_one ps (offer req { s with temps }) hb (.inl rfl) unserved).of_history_eq rfl
  | cons req' reqs ih =>
    intro req ps s temps hb ⟨hnext, hlater⟩ hnone
    cases first : servedOne false s.lateDue ps with
    | none =>
      have one := runEdges_cutShort_one (seq := seq) ps (offer req { s with temps }) hb (.inl rfl) first
      obtain ⟨new, happend, hnew⟩ := one.history
      exact ⟨one.ctrl, new, happend, hnew.trans (List.prefix_append [req] _)⟩
    | some answer =>
      obtain ⟨v, d, qs⟩ := answer
      obtain ⟨t, after, run⟩ := runEdges_served (seq := seq) ps false (offer req { s with temps }) hb rfl first
      have index : t.temps.txnIndex = temps.txnIndex + 1 := by rw [after.temps, offer_temps]
      obtain ⟨temps', index', next⟩ := hnext t after.pos index
      rw [List.length_cons, served_of_servedOne first, ← after.lateDue] at hnone
      have later := ih req' qs t temps' after.ctrl (by rw [index', after.pos]; exact hlater)
        (Option.map_eq_none_iff.mp hnone)
      rw [run, next]
      exact (later.cons after.history).of_history_eq rfl

end Sys2Proof.Machine
end

section
/-!
PROOFS. Runs of ENUM_NEXT, O20 to O26, O57 and O24. `EnumRun` says how a run goes, round by round: it ends at the
sentinel, is cut short, or yields; or an absent probe sends it to the next round. There are as many rounds as devices
left, since an absent header is no multifunction one. Each statement is an induction on the run.
-/

namespace Sys2Proof.Machine

/-! ### Positions in ascending order -/

/-- Settles O23: in each case of `advance` the key grows. -/
theorem advanceIncreasesThePosition : Obligations.AdvanceIncreasesThePosition := by
  intro mf p hbus
  have hslot := (not_atSentinel_iff p).mpr hbus
  rcases advance_cases mf p with ⟨hend, _⟩ | ⟨_, _, hfn, e⟩ | ⟨_, hdev, e⟩ | ⟨_, hdev, e⟩
  · simp [hslot] at hend
  all_goals
    rw [e]
    simp only [positionKey]
    bv_omega

/-- How many devices are at the position or after it: a bound on the probes that find their slot absent. -/
def devicesLeft (p : Position) : Nat :=
  8192 - (p.bus.toNat * 32 + p.dev.toNat)

theorem devicesLeft_le (p : Position) : devicesLeft p ≤ 8192 := by
  simp [devicesLeft]

theorem devicesLeft_pos {p : Position} (h : atSentinel p = false) : 0 < devicesLeft p := by
  rw [not_atSentinel_iff] at h
  have hdev := p.dev.isLt
  simp only [devicesLeft]
  omega

/-- R142: without a multifunction header an advance goes to the next device. -/
theorem devicesLeft_advance {p : Position} (h : atSentinel p = false) :
    devicesLeft (advance false p) + 1 = devicesLeft p := by
  have hbus := (not_atSentinel_iff p).mp h
  rcases advance_cases false p with ⟨hend, _⟩ | ⟨_, hmf, _⟩ | ⟨_, hdev, e⟩ | ⟨_, hdev, e⟩
  · simp [h] at hend
  · cases hmf
  all_goals
    rw [e]
    simp only [devicesLeft]
    bv_omega

/-! ### One round -/

/-- The position that the next round of the loop advances to. -/
abbrev nextPosition (s : State) : Position :=
  advance (multifunction s.hdr) s.pos

/-- The six requests of the probe of a slot (R143). -/
def probeReqs (p : Position) : List IoReq :=
  [probeWrite p Config.headerOffset0, dataRead, probeWrite p Config.headerOffset2, dataRead,
    probeWrite p Config.headerOffset3, dataRead]

theorem enumNextSeq_offersAll (p : Position) : OffersAll enumNextSeq p 1
    [dataRead, probeWrite p Config.headerOffset2, dataRead, probeWrite p Config.headerOffset3, dataRead] := by
  refine ⟨fun t _ h => ?_, fun t hp h => ?_, fun t _ h => ?_, fun t hp h => ?_, fun t _ h => ?_, trivial⟩
  · exact ⟨t.temps, h, enumNextSeq_dataRead (.inl h)⟩
  · exact ⟨{ t.temps with probeD0 := t.temps.lastRead }, h, hp ▸ enumNextSeq_third h⟩
  · exact ⟨t.temps, h, enumNextSeq_dataRead (.inr (.inl h))⟩
  · exact ⟨{ t.temps with probeD2 := t.temps.lastRead }, h, hp ▸ enumNextSeq_fifth h⟩
  · exact ⟨t.temps, h, enumNextSeq_dataRead (.inr (.inr h))⟩

/-- A probe that the edges do not serve in full cuts the command short. -/
theorem exec_enumNext_cutShort {s t : State} (hs : Fresh s) (hslot : atSentinel (nextPosition s) = false)
    (hnone : served 6 s.lateDue s.inputs = none) (he : exec .enumNext s = .next t) :
    CutShort s t (probeReqs (nextPosition s)) := by
  rcases enumRound_cases { s with ctrl := .busy } with ⟨hend, _⟩ | ⟨_, e⟩
  · simp [hslot] at hend
  · rw [exec_enumNext hs, e] at he
    cases he
    exact (runEdges_cutShort _ _ s.inputs { s with ctrl := .busy, pos := nextPosition s }
      { s.temps with txnIndex := 0 } rfl (enumNextSeq_offersAll _) hnone).of_history_eq rfl

/-- A run of ENUM_NEXT from `s` ends in `t`. -/
inductive EnumRun (t : State) : State → Prop
  /-- The advance reaches the end sentinel. -/
  | exhausted {s : State} (hend : atSentinel (nextPosition s) = true)
      (ht : t = { s with
        pos := nextPosition s, hdr := { s.hdr with vendor := 0xFFFF }, rsp := ⟨0, false, false⟩, ctrl := .resp }) :
      EnumRun t s
  /-- The edges do not serve the probe. -/
  | cut {s : State} (hslot : atSentinel (nextPosition s) = false) (hnone : served 6 s.lateDue s.inputs = none)
      (ht : CutShort s t (probeReqs (nextPosition s))) : EnumRun t s
  /-- The probe finds a present function. -/
  | found {s : State} {d0 d2 d3 : Dword} {rest : List Pins} (hslot : atSentinel (nextPosition s) = false)
      (hpresent : present (headerOf d0 d2 d3) = true)
      (ht : Answered s t ⟨0, true, false⟩ (probeTxns (nextPosition s) d0 d2 d3) rest)
      (hpos : t.pos = nextPosition s) (hhdr : t.hdr = headerOf d0 d2 d3) : EnumRun t s
  /-- The probe finds an absent one, and the loop goes round again from `u`. -/
  | again {s u : State} {d0 d2 d3 : Dword} {vs : List Dword} (hslot : atSentinel (nextPosition s) = false)
      (hserved : served 6 s.lateDue s.inputs = some (vs, u.lateDue, u.inputs)) (habsent : present u.hdr = false)
      (hpos : u.pos = nextPosition s) (hhdr : u.hdr = headerOf d0 d2 d3) (hcmd : u.cmd = s.cmd)
      (hhistory : u.responder.history = s.responder.history ++ probeTxns (nextPosition s) d0 d2 d3)
      (hrun : EnumRun t u) : EnumRun t s

/-- After an absent probe the next round goes to the next device. -/
theorem nextPosition_of_absent {s u : State} (hpos : u.pos = nextPosition s) (habsent : present u.hdr = false) :
    nextPosition u = advance false (nextPosition s) := by
  rw [nextPosition, hpos, multifunction, habsent, Bool.false_and]

theorem enumRun_of_devicesLeft {t : State} : ∀ (n : Nat) (s : State), devicesLeft (nextPosition s) ≤ n → Fresh s →
    exec .enumNext s = .next t → EnumRun t s
  | n, s, hn, hs, he => by
    obtain ⟨-, loop⟩ := enumNextFollowsItsLoop
    obtain ⟨exhausted, probe⟩ := loop s hs
    cases hend : atSentinel (nextPosition s) with
    | true =>
      rw [exhausted hend] at he
      cases he
      exact .exhausted hend rfl
    | false =>
      cases hserved : served 6 s.lateDue s.inputs with
      | none => exact .cut hend hserved (exec_enumNext_cutShort hs hend hserved he)
      | some answer =>
        obtain ⟨vs, due, rest⟩ := answer
        match vs, served_length hserved with
        | [x0, d0, x2, d2, x3, d3], _ =>
          obtain ⟨found, again⟩ := probe x0 d0 x2 d2 x3 d3 due rest hend hserved
          cases hp : present (headerOf d0 d2 d3) with
          | true =>
            obtain ⟨t', run, answered, hpos, hhdr⟩ := found hp
            cases run.symm.trans he
            exact .found hend hp answered hpos hhdr
          | false =>
            obtain ⟨u, run, hu, hpos, hhdr, hhistory, hcmd, -, rfl, rfl⟩ := again hp
            have habsent : present u.hdr = false := by rw [hhdr, hp]
            have fewer := devicesLeft_advance hend
            rw [← nextPosition_of_absent hpos habsent] at fewer
            match n, hn with
            | 0, hn => omega
            | n + 1, hn =>
              exact .again hend hserved habsent hpos hhdr hcmd hhistory
                (enumRun_of_devicesLeft n u (by omega) hu (run.symm.trans he))

/-- Every run of ENUM_NEXT from where it was accepted goes so. -/
theorem enumRun_of_exec {s t : State} (hs : Fresh s) (he : exec .enumNext s = .next t) : EnumRun t s :=
  enumRun_of_devicesLeft _ s le_rfl hs he

/-! ### What a run leaves -/

/-- A run only adds to the history. -/
theorem EnumRun.history {s t : State} (h : EnumRun t s) :
    ∃ new, t.responder.history = s.responder.history ++ new := by
  induction h with
  | exhausted _ ht => exact ⟨[], by simp [ht]⟩
  | cut _ _ ht => exact ht.history.imp fun _ => And.left
  | found _ _ ht => exact ⟨_, ht.history⟩
  | again _ _ _ _ _ _ hhistory _ ih =>
    obtain ⟨new, happend⟩ := ih
    exact ⟨_, by rw [happend, hhistory, List.append_assoc]⟩

/-- Settles O57: the probe that ends the run found the function present. -/
theorem yieldShowsAPresentFunction : Obligations.YieldShowsAPresentFunction := by
  intro s t hs he hc hfound
  have run := enumRun_of_exec hs he
  clear he hs
  induction run with
  | exhausted _ ht => simp [ht] at hfound
  | cut _ _ ht => exact absurd hc ht.ctrl
  | found hslot hpresent _ hpos hhdr =>
    rw [hpos, hhdr]
    exact ⟨by simpa [present, Config.sentinelVendor] using hpresent, (not_atSentinel_iff _).mp hslot⟩
  | again _ _ _ _ _ _ _ _ ih => exact ih

/-- Settles O20: the bound of transactions is six for each device left. -/
theorem enumNextCompletes : Obligations.EnumNextCompletes := by
  intro s vs due rest hs hserved
  refine ⟨_, exec_next .enumNext s, ?_⟩
  have run := enumRun_of_exec hs (exec_next .enumNext s)
  have enough : 6 * devicesLeft (nextPosition s) ≤ Config.maxTransactions :=
    Nat.mul_le_mul_left 6 (devicesLeft_le _)
  clear hs
  generalize Config.maxTransactions = n at hserved enough
  generalize runEdges (sequencerOf .enumNext) s.inputs (start (sequencerOf .enumNext) s) = t at run ⊢
  induction run generalizing n vs with
  | exhausted hend ht =>
    subst ht
    exact ⟨rfl, rfl, .inr ⟨rfl, advance_atSentinel hend, rfl⟩⟩
  | cut hslot hnone =>
    have := devicesLeft_pos hslot
    obtain ⟨m, rfl⟩ := Nat.exists_eq_add_of_le (show 6 ≤ n by omega)
    obtain ⟨_, _, _, _, _, six, _⟩ := served_add hserved
    simp [hnone] at six
  | found hslot hpresent ht hpos hhdr =>
    rw [hpos, hhdr]
    exact ⟨ht.ctrl, ht.cmd, .inl ⟨ht.rsp, hpresent, (not_atSentinel_iff _).mp hslot⟩⟩
  | again hslot hsix habsent hpos _ hcmd _ _ ih =>
    have fewer := devicesLeft_advance hslot
    rw [← nextPosition_of_absent hpos habsent] at fewer
    obtain ⟨m, rfl⟩ := Nat.exists_eq_add_of_le (show 6 ≤ n by omega)
    obtain ⟨_, ys, _, _, _, six, later⟩ := served_add hserved
    cases hsix.symm.trans six
    obtain ⟨hc, hcmd', ends⟩ := ih ys m later (by omega)
    exact ⟨hc, hcmd'.trans hcmd, ends⟩

/-- Settles O25: the header that exhaustion leaves is the held one, and after an absent probe that is the probe's. -/
theorem exhaustionLeavesTheInitPosition : Obligations.ExhaustionLeavesTheInitPosition := by
  intro s t hs he hc hfound
  have run := enumRun_of_exec hs he
  clear he hs
  induction run with
  | exhausted hend ht =>
    subst ht
    exact ⟨advance_atSentinel hend, rfl, .inl ⟨rfl, rfl⟩⟩
  | cut _ _ ht => exact absurd hc ht.ctrl
  | found _ _ ht => simp [ht.rsp] at hfound
  | @again s u d0 d2 d3 _ _ _ _ _ hhdr _ hhistory _ ih =>
    obtain ⟨hpos, hvendor, ⟨nothing, hdr⟩ | ⟨earlier, p, e0, e2, e3, last, hdr⟩⟩ := ih
    · refine ⟨hpos, hvendor, .inr ⟨[], nextPosition s, d0, d2, d3, ?_, by rw [hdr, hhdr]⟩⟩
      rw [nothing, hhistory, List.append_nil]
    · refine ⟨hpos, hvendor, .inr ⟨probeTxns (nextPosition s) d0 d2 d3 ++ earlier, p, e0, e2, e3, ?_, hdr⟩⟩
      simp only [last, hhistory, List.append_assoc]

/-! ### The transactions of a run -/

/-- Settles O21: each round adds at most the six transactions of a probe. -/
theorem enumNextMakesAtMost8192Probes : Obligations.EnumNextMakesAtMost8192Probes := by
  intro s t hs he
  have run := enumRun_of_exec hs he
  suffices bound : ∃ new, t.responder.history = s.responder.history ++ new ∧
      new.length ≤ 6 * devicesLeft (nextPosition s) by
    obtain ⟨new, happend, hlength⟩ := bound
    have := devicesLeft_le (nextPosition s)
    exact ⟨new, happend, by omega⟩
  clear he hs
  induction run with
  | exhausted _ ht => exact ⟨[], by simp [ht], by simp⟩
  | cut hslot _ ht =>
    obtain ⟨new, happend, first⟩ := ht.history
    have := devicesLeft_pos hslot
    have := first.length_le
    simp only [List.length_map, probeReqs, List.length_cons, List.length_nil] at this
    exact ⟨new, happend, by omega⟩
  | found hslot _ ht =>
    have := devicesLeft_pos hslot
    exact ⟨_, ht.history, by simp [probeTxns, readPair]; omega⟩
  | again hslot _ habsent hpos _ _ hhistory _ ih =>
    obtain ⟨new, happend, hlength⟩ := ih
    have fewer := devicesLeft_advance hslot
    rw [← nextPosition_of_absent hpos habsent] at fewer
    refine ⟨probeTxns _ _ _ _ ++ new, by rw [happend, hhistory, List.append_assoc], ?_⟩
    simp [probeTxns, readPair]
    omega

/-- The value a request writes to the address port, as a number. -/
def IoReq.address : IoReq → Option Nat
  | .write port a => if port = Config.addrPort then some a.toNat else none
  | .read _ => none

theorem addressesOf_eq_filterMap (h : List IoTxn) : addressesOf h = (h.map (·.req)).filterMap IoReq.address := by
  refine Eq.trans (b := h.filterMap (IoReq.address ∘ IoTxn.req)) ?_ List.filterMap_map.symm
  exact congrArg (List.filterMap · h) (funext fun ⟨req, _, _⟩ => by cases req <;> rfl)

theorem addressesOf_append (h k : List IoTxn) : addressesOf (h ++ k) = addressesOf h ++ addressesOf k :=
  List.filterMap_append

/-- The three addresses that a probe writes. -/
def probeAddresses (p : Position) : List Nat :=
  [(probeAddress p Config.headerOffset0).toNat, (probeAddress p Config.headerOffset2).toNat,
    (probeAddress p Config.headerOffset3).toNat]

theorem addresses_probeReqs (p : Position) : (probeReqs p).filterMap IoReq.address = probeAddresses p := rfl

theorem addressesOf_probeTxns (p : Position) (d0 d2 d3 : Dword) :
    addressesOf (probeTxns p d0 d2 d3) = probeAddresses p := rfl

/-- R143, R80: the address of a slot's dword, as its place in the flat space with the enable bit. -/
theorem probeAddress_toNat {p : Position} (h : atSentinel p = false) (off : Byte) :
    (probeAddress p off).toNat = 2 ^ 31 + positionKey p * 256 + off.toNat / 4 * 4 := by
  rw [not_atSentinel_iff] at h
  have hdev := p.dev.isLt
  have hfn := p.fn.isLt
  rw [probeAddress, cfgAddress_toNat, positionKey]
  simp only [BitVec.toNat_setWidth]
  omega

/-- The addresses of a probe are those of the slot and the two above it. -/
theorem probeAddresses_eq {p : Position} (h : atSentinel p = false) : probeAddresses p =
    [2 ^ 31 + positionKey p * 256, 2 ^ 31 + positionKey p * 256 + 8, 2 ^ 31 + positionKey p * 256 + 12] := by
  simp [probeAddresses, probeAddress_toNat h, Config.headerOffset0, Config.headerOffset2, Config.headerOffset3]

theorem probeAddresses_pairwise {p : Position} (h : atSentinel p = false) :
    (probeAddresses p).Pairwise (· < ·) := by
  simp [probeAddresses_eq h]

/-- These addresses strictly increase, from the slot `p` on; where `p` is the end sentinel there are none. -/
def AscendFrom (p : Position) (addresses : List Nat) : Prop :=
  addresses.Pairwise (· < ·) ∧
    ∀ a ∈ addresses, atSentinel p = false ∧ 2 ^ 31 + positionKey p * 256 ≤ a

theorem ascendFrom_probe {p : Position} (h : atSentinel p = false) : AscendFrom p (probeAddresses p) := by
  refine ⟨probeAddresses_pairwise h, fun a ha => ⟨h, ?_⟩⟩
  rw [probeAddresses_eq h] at ha
  simp only [List.mem_cons, List.not_mem_nil, or_false] at ha
  omega

/-- R148: the addresses from the next device on are above those of this slot. -/
theorem AscendFrom.after_probe {p : Position} {addresses : List Nat} (h : atSentinel p = false)
    (later : AscendFrom (advance false p) addresses) : AscendFrom p (probeAddresses p ++ addresses) := by
  obtain ⟨increase, above⟩ := later
  have key := advanceIncreasesThePosition false p ((not_atSentinel_iff p).mp h)
  have first := ascendFrom_probe h
  refine ⟨List.pairwise_append.mpr ⟨first.1, increase, fun a ha b hb => ?_⟩,
    List.forall_mem_append.mpr ⟨first.2, fun b hb => ⟨h, ?_⟩⟩⟩
  · have := (above b hb).2
    rw [probeAddresses_eq h] at ha
    simp only [List.mem_cons, List.not_mem_nil, or_false] at ha
    omega
  · exact (Nat.add_le_add_left (Nat.mul_le_mul_right 256 key.le) _).trans (above b hb).2

/-- Settles O22: a round's addresses are below those of the rounds after it. -/
theorem enumNextAddressesStrictlyIncrease : Obligations.EnumNextAddressesStrictlyIncrease := by
  intro s t hs he
  have run := enumRun_of_exec hs he
  suffices ascend : ∃ new, t.responder.history = s.responder.history ++ new ∧
      AscendFrom (nextPosition s) (addressesOf new) by
    obtain ⟨new, happend, increase, -⟩ := ascend
    exact ⟨new, happend, increase⟩
  clear he hs
  induction run with
  | exhausted _ ht => exact ⟨[], by simp [ht], List.Pairwise.nil, List.forall_mem_nil _⟩
  | @cut s hslot _ ht =>
    obtain ⟨new, happend, first⟩ := ht.history
    have among : (addressesOf new).Sublist (probeAddresses (nextPosition s)) := by
      rw [addressesOf_eq_filterMap, ← addresses_probeReqs]
      exact (first.filterMap _).sublist
    obtain ⟨increase, above⟩ := ascendFrom_probe hslot
    exact ⟨new, happend, increase.sublist among, fun a ha => above a (among.subset ha)⟩
  | found hslot _ ht => exact ⟨_, ht.history, ascendFrom_probe hslot⟩
  | again hslot _ habsent hpos _ _ hhistory _ ih =>
    obtain ⟨new, happend, later⟩ := ih
    rw [nextPosition_of_absent hpos habsent] at later
    refine ⟨probeTxns _ _ _ _ ++ new, by rw [happend, hhistory, List.append_assoc], ?_⟩
    rw [addressesOf_append, addressesOf_probeTxns]
    exact later.after_probe hslot

/-! ### The pure loop -/

/-- The reads of a probe that answer from `cfg` hold the header that `cfg` gives the slot. -/
theorem headerOf_of_readsFrom {cfg : Dword → Dword} {p : Position} {d0 d2 d3 : Dword}
    (h : ReadsFrom cfg (probeTxns p d0 d2 d3)) : headerOf d0 d2 d3 = headerAt cfg p := by
  have h0 := h (probeAddress p Config.headerOffset0) d0 (by simp [probeTxns, readPair])
  have h2 := h (probeAddress p Config.headerOffset2) d2 (by simp [probeTxns, readPair])
  have h3 := h (probeAddress p Config.headerOffset3) d3 (by simp [probeTxns, readPair])
  rw [headerAt, ← h0, ← h2, ← h3]

/-- A round of the pure loop that advances to a slot. -/
theorem enumPure_slot {cfg : Dword → Dword} {n : Nat} {p : Position} {h : Header}
    (hslot : atSentinel (advance (multifunction h) p) = false) :
    enumPure cfg (n + 1) (p, h) =
      if present (headerAt cfg (advance (multifunction h) p)) then
        (advance (multifunction h) p, headerAt cfg (advance (multifunction h) p))
      else enumPure cfg n (advance (multifunction h) p, headerAt cfg (advance (multifunction h) p)) := by
  simp [enumPure, enumVisit, hslot]

/-- Settles O26: each round of the run is a round of the pure loop. -/
theorem enumNextRefinesThePureLoop : Obligations.EnumNextRefinesThePureLoop := by
  intro cfg s t new hs he hc happend hreads
  have run := enumRun_of_exec hs he
  have enough : devicesLeft (nextPosition s) < 8193 := Nat.lt_succ_of_le (devicesLeft_le _)
  clear he hs
  generalize 8193 = n at enough
  induction run generalizing n new with
  | @exhausted s hend ht =>
    obtain ⟨n, rfl⟩ := Nat.exists_eq_add_one_of_ne_zero (Nat.ne_zero_of_lt enough)
    subst ht
    simp [enumPure, enumVisit, hend, Config.sentinelVendor]
  | cut _ _ ht => exact absurd hc ht.ctrl
  | @found s d0 d2 d3 _ hslot hpresent ht hpos hhdr =>
    obtain ⟨n, rfl⟩ := Nat.exists_eq_add_one_of_ne_zero (Nat.ne_zero_of_lt enough)
    obtain rfl := List.append_cancel_left (happend.symm.trans ht.history)
    rw [headerOf_of_readsFrom hreads] at hpresent hhdr
    rw [enumPure_slot hslot, if_pos hpresent, hpos, hhdr, ht.rsp, hpresent, hslot]
    exact ⟨rfl, rfl⟩
  | @again s u d0 d2 d3 _ hslot _ habsent hpos hhdr _ hhistory hrun ih =>
    obtain ⟨n, rfl⟩ := Nat.exists_eq_add_one_of_ne_zero (Nat.ne_zero_of_lt enough)
    have fewer := devicesLeft_advance hslot
    rw [← nextPosition_of_absent hpos habsent] at fewer
    obtain ⟨later, hlater⟩ := hrun.history
    have split : probeTxns (nextPosition s) d0 d2 d3 ++ later = new := by
      rw [hlater, hhistory, List.append_assoc] at happend
      exact List.append_cancel_left happend
    subst split
    have header := headerOf_of_readsFrom fun a v h => hreads a v (List.mem_append_left later h)
    rw [header] at hhdr
    have pure := ih later hlater (fun a v h => hreads a v (List.mem_append_right _ h)) n (by omega)
    rw [hpos, hhdr] at pure
    rw [hhdr] at habsent
    rwa [enumPure_slot hslot, if_neg (by simp [habsent])]

/-! ### A new pass -/

/-- Settles O24: with no edge to come the run is the first move. -/
theorem enumNextAtTheSentinelStartsAPass : Obligations.EnumNextAtTheSentinelStartsAPass := by
  intro s hs hbus hin
  have first : advance (multifunction s.hdr) s.pos = ⟨0, 0, 0⟩ :=
    advance_of_atSentinel _ ((atSentinel_iff _).mpr hbus)
  have waits (u : State) : runEdges enumNextSeq s.inputs u = { u with inputs := [] } := by rw [hin, runEdges_nil]
  rcases enumRound_cases { s with ctrl := .busy } with ⟨hend, _⟩ | ⟨_, e⟩
  · rw [first] at hend
    exact absurd hend (by decide)
  · rw [first] at e
    have write : probeWrite ⟨0, 0, 0⟩ Config.headerOffset0 = .write 0xCF8 0x80000000 := by decide
    rw [write] at e
    have run := exec_enumNext hs
    rw [e, waits] at run
    exact ⟨_, run, rfl, rfl, rfl, rfl⟩

end Sys2Proof.Machine
end

section
/-!
PROOFS. O37, how many transactions a completed command made: none, the two of an access, or six for each probe. A
command that has responded was not cut short, so its edges served them.
-/

namespace Sys2Proof.Machine

theorem cfgReadDword_offersAll (bus dev fn off : Byte) (k : Dword → State → State) (pos : Position) :
    OffersAll (cfgReadDword bus dev fn off k) pos 1 [dataRead] :=
  ⟨fun t _ h => ⟨t.temps, h, by simp [cfgReadDword, h]⟩, trivial⟩

theorem cfgWriteDword_offersAll (bus dev fn off : Byte) (value : Dword) (k : State → State) (pos : Position) :
    OffersAll (cfgWriteDword bus dev fn off value k) pos 1 [dataWrite value] :=
  ⟨fun t _ h => ⟨t.temps, h, by simp [cfgWriteDword, h]⟩, trivial⟩

section

variable {s t : State} (hs : Fresh s) (hc : t.ctrl = .resp)

include hs hc

/-- A command whose sequencer offers an address write and then `req`, and that has responded, was served twice. -/
theorem served_of_access {seq : State → State} {bus dev fn off : Byte} {req : IoReq}
    (h0 : ∀ u : State, u.temps.txnIndex = 0 → seq u = offer (addrWrite bus dev fn off) u)
    (h1 : OffersAll seq s.pos 1 [req]) (he : runCommand seq s = .next t) :
    ∃ x v due rest, served 2 s.lateDue s.inputs = some ([x, v], due, rest) := by
  obtain ⟨hio, hindex⟩ := hs
  cases hserved : served 2 s.lateDue s.inputs with
  | some answer =>
    obtain ⟨vs, due, rest⟩ := answer
    match vs, served_length hserved with
    | [x, v], _ => exact ⟨x, v, due, rest, rfl⟩
  | none =>
    rw [runCommand_quiet hio, h0 { s with ctrl := .busy } hindex] at he
    cases he
    have short := runEdges_cutShort [req] (addrWrite bus dev fn off) s.inputs { s with ctrl := .busy } s.temps rfl
      (by rw [hindex]; exact h1) hserved
    exact absurd hc short.ctrl

/-- R110: a dword read that has responded made its read pair. -/
theorem answered_cfgReadDword (bus dev fn off : Byte) (result : Dword → Dword)
    (he : runCommand (cfgReadDword bus dev fn off fun v => respond (result v) false false) s = .next t) :
    ∃ v rest, Answered s t ⟨result v, false, false⟩ (readPair (cfgAddress bus dev fn off) v) rest := by
  obtain ⟨x, v, due, rest, hserved⟩ := served_of_access (bus := bus) (dev := dev) (fn := fn) (off := off) hs hc
    (fun u h => by simp [cfgReadDword, h]) (cfgReadDword_offersAll bus dev fn off _ s.pos) he
  obtain ⟨t', run, answered, -⟩ := runCommand_cfgReadDword bus dev fn off result hs hserved
  cases run.symm.trans he
  exact ⟨v, rest, answered⟩

/-- R111: a dword write that has responded made its write pair. -/
theorem answered_cfgWriteDword (bus dev fn off : Byte) (value : Dword)
    (he : runCommand (cfgWriteDword bus dev fn off value (respond 0 false false)) s = .next t) :
    ∃ rest, Answered s t ⟨0, false, false⟩ (writePair (cfgAddress bus dev fn off) value) rest := by
  obtain ⟨x, v, due, rest, hserved⟩ := served_of_access (bus := bus) (dev := dev) (fn := fn) (off := off) hs hc
    (fun u h => by simp [cfgWriteDword, h]) (cfgWriteDword_offersAll bus dev fn off value _ s.pos) he
  obtain ⟨t', run, answered, -⟩ := runCommand_cfgWriteDword bus dev fn off value hs hserved
  cases run.symm.trans he
  exact ⟨rest, answered⟩

end

/-- R235: six transactions for each probe of a completed ENUM_NEXT, of which there are no more than devices left. -/
theorem EnumRun.probes {s t : State} (h : EnumRun t s) (hc : t.ctrl = .resp) :
    ∃ probes ≤ devicesLeft (nextPosition s),
      t.responder.history.length = s.responder.history.length + 6 * probes := by
  induction h with
  | exhausted _ ht => exact ⟨0, Nat.zero_le _, by rw [ht]; rfl⟩
  | cut _ _ ht => exact absurd hc ht.ctrl
  | found hslot _ ht => exact ⟨1, devicesLeft_pos hslot, by rw [ht.history, List.length_append]; rfl⟩
  | again hslot _ habsent hpos _ _ hhistory _ ih =>
    obtain ⟨probes, hprobes, hlength⟩ := ih
    have fewer := devicesLeft_advance hslot
    rw [← nextPosition_of_absent hpos habsent] at fewer
    refine ⟨probes + 1, by omega, ?_⟩
    rw [hlength, hhistory, List.length_append]
    simp only [probeTxns, readPair, List.length_append, List.length_cons, List.length_nil]
    omega

/-- Settles O37: by the command. -/
theorem completedCommandsMakeTheirTransactions : Obligations.CompletedCommandsMakeTheirTransactions := by
  refine ⟨fun i s t hs he hc => ?_, fun _ => rfl⟩
  have two {rsp : Response} {x y : IoTxn} {rest : List Pins} (h : Answered s t rsp [x, y] rest) :
      t.responder.history.length = s.responder.history.length + 2 := by
    rw [h.history, List.length_append]
    rfl
  have read (bus dev fn off : Byte) (result : Dword → Dword)
      (he : runCommand (cfgReadDword bus dev fn off fun v => respond (result v) false false) s = .next t) :
      t.responder.history.length = s.responder.history.length + 2 := by
    obtain ⟨_, _, answered⟩ := answered_cfgReadDword hs hc bus dev fn off result he
    exact two answered
  have write (bus dev fn off : Byte) (value : Dword)
      (he : runCommand (cfgWriteDword bus dev fn off value (respond 0 false false)) s = .next t) :
      t.responder.history.length = s.responder.history.length + 2 := by
    obtain ⟨_, answered⟩ := answered_cfgWriteDword hs hc bus dev fn off value he
    exact two answered
  cases i with
  | encodeAddr bus dev fn off =>
    rw [exec_encodeAddr hs.1] at he
    cases he
    rfl
  | enumInit =>
    rw [exec_enumInit hs.1] at he
    cases he
    rfl
  | enumNext =>
    obtain ⟨probes, hprobes, hlength⟩ := (enumRun_of_exec hs he).probes hc
    exact ⟨probes, hprobes.trans (devicesLeft_le _), hlength⟩
  | rdDword bus dev fn off => exact read bus dev fn off id he
  | rdWord bus dev fn off => exact read bus dev fn off (wordOf · off) he
  | rdByte bus dev fn off => exact read bus dev fn off (byteOf · off) he
  | rdBar bus dev fn index => exact read bus dev fn (barOffset index) id he
  | wrDword bus dev fn off value => exact write bus dev fn off value he
  | wrBar bus dev fn index value => exact write bus dev fn (barOffset index) value he

end Sys2Proof.Machine
end

section
/-!
PROOFS. The command master's read-modify-write, O59 and O60: one issued command is one run from the state that accepts
it, and the offers and edges that the next command needs are kept, so the commands are chained.
-/

namespace Sys2Proof.Machine

/-! ### What a command leaves of the surroundings -/

/-- The edges still to come after a run are the last of those before it. -/
theorem runEdges_inputs_suffix {seq : State → State} : ∀ (ps : List Pins) (s : State),
    (runEdges seq ps s).inputs <:+ ps
  | [], _ => List.nil_suffix
  | p :: ps, s => by
    by_cases hb : s.ctrl = .busy
    · rw [runEdges_cons_busy hb]
      exact (runEdges_inputs_suffix ps _).trans (List.suffix_cons p ps)
    · rw [runEdges_done hb]

/-- No other command is offered in `s`: none waits, and the edges offer none. -/
structure NoOffers (s : State) : Prop where
  cmdOffer : s.cmdOffer = .nothing
  inputs : ∀ p ∈ s.inputs, p.cmdValid = false

theorem exec_inputs_subset {i : Instr} {s t : State} (he : exec i s = .next t) : t.inputs ⊆ s.inputs := by
  rw [exec_next] at he
  cases he
  exact (runEdges_inputs_suffix _ _).subset

theorem NoOffers.exec {i : Instr} {s t : State} (h : NoOffers s) (he : exec i s = .next t) : NoOffers t where
  inputs p hp := h.inputs p (exec_inputs_subset he hp)
  cmdOffer := by
    have move (u : State) : (sequencerOf i u).cmdOffer = u.cmdOffer := (sequencerOf_move i u).cmdOffer
    have watch (p : Pins) (u : State) (hp : p.cmdValid = false) (hu : u.cmdOffer = .nothing) :
        (passEdge p u).cmdOffer = .nothing := by simp [hu, CmdOffer.watch, hp]
    exact exec_keeps_over (P := fun u => u.cmdOffer = .nothing) (Q := fun p => p.cmdValid = false) i
      (hin := fun _ _ h => h)
      (hreset := fun _ _ _ _ _ => rfl)
      (hpass := watch)
      (hissue := fun p u _ hp _ _ hu => watch p u hp hu)
      (hcomplete := fun p u _ _ hp _ _ hu => by rw [move]; exact watch p u hp hu)
      h.inputs
      (start_keeps (P := fun u => u.cmdOffer = .nothing) (fun _ _ h => h) (fun u h => by rwa [move]) h.cmdOffer) he

/-- A command's word runs as the command. -/
theorem runLatched_encode {i : Instr} {u : State} (h : u.cmd = Command.ofWord (encode i)) :
    runLatched u = exec i u :=
  runLatched_ok (by rw [h, ofWord_encode, decode_command])

/-! ### A command that is issued and served -/

/-- `t` is where a command issued in `s` has responded `rsp` after the transactions `txns`, with `due` and `rest` still
to come, and with no other command offered. -/
structure Issued (s t : State) (rsp : Response) (txns : List IoTxn) (due : Nat) (rest : List Pins) : Prop where
  ctrl : t.ctrl = .resp
  rsp : t.rsp = rsp
  history : t.responder.history = s.responder.history ++ txns
  enumKept : EnumKept s t
  noOffers : NoOffers t
  lateDue : t.lateDue = due
  inputs : t.inputs = rest

/-- What is due after a completed access is what its transactions left due. -/
theorem lateDue_of_access {seq : State → State} {s t : State} {r1 r2 : IoReq} {x v : Dword} {due : Nat}
    {rest : List Pins} (hs : Fresh s) (hserved : served 2 s.lateDue s.inputs = some ([x, v], due, rest))
    (h0 : ∀ u : State, u.temps.txnIndex = 0 → seq u = offer r1 u)
    (h1 : ∀ u : State, u.temps.txnIndex = 1 → seq u = offer r2 u)
    (h2 : ∀ u : State, u.temps.txnIndex = 2 → ∃ data, seq u = respond data false false u)
    (he : runCommand seq s = .next t) : t.lateDue = due := by
  obtain ⟨_, t1, t2, first, second, run⟩ := runCommand_two hs hserved h0 h1
  have index : t2.temps.txnIndex = 2 := by simp [second.temps, first.temps, hs.2]
  obtain ⟨data, last⟩ := h2 t2 index
  rw [last, runEdges_done (by simp)] at run
  cases run.symm.trans he
  exact second.lateDue

section

variable {s : State} {x v : Dword} {due : Nat} {rest : List Pins} (hc : s.ctrl ≠ .busy) (hn : NoOffers s)
  (hserved : served 2 s.lateDue s.inputs = some ([x, v], due, rest))

include hc hn hserved

/-- A command is issued where the block accepts it, and served there. -/
theorem issueCommand_served {i : Instr} {rsp : Response} {txns : List IoTxn}
    (haccess : ∀ u : State, Fresh u → served 2 u.lateDue u.inputs = some ([x, v], due, rest) →
      ∃ t, exec i u = .next t ∧ Answered u t rsp txns rest ∧ EnumKept u t ∧ t.lateDue = due) :
    ∃ t, issueCommand (encode i) s = .next t ∧ Issued s t rsp txns due rest := by
  rcases issueCommand_cases (encode i) s hn.cmdOffer with ⟨hb, _⟩ | ⟨_, u, e, fresh, _, hcmd, _, hresponder, hkept,
    hoffer, hin, hdue⟩
  · exact absurd hb hc
  · obtain ⟨t, run, answered, kept, hlate⟩ := haccess u fresh (by rw [hdue, hin]; exact hserved)
    have quiet : NoOffers u := ⟨hoffer, by rw [hin]; exact hn.inputs⟩
    refine ⟨t, by rw [e, runLatched_encode hcmd, run], answered.ctrl, answered.rsp, ?_, hkept.trans kept,
      quiet.exec run, hlate, answered.inputs⟩
    rw [answered.history, hresponder]

theorem issueCommand_rdDword (bus dev fn off : Byte) :
    ∃ t, issueCommand (encode (.rdDword bus dev fn off)) s = .next t ∧
      Issued s t ⟨v, false, false⟩ (readPair (cfgAddress bus dev fn off) v) due rest := by
  refine issueCommand_served hc hn hserved fun u hu hserved => ?_
  obtain ⟨t, run, answered, kept⟩ := runCommand_cfgReadDword bus dev fn off id hu hserved
  exact ⟨t, run, answered, kept, lateDue_of_access (r1 := addrWrite bus dev fn off) (r2 := dataRead) hu hserved
    (fun u h => by simp [cfgReadDword, h]) (fun u h => by simp [cfgReadDword, h])
    (fun u h => ⟨id u.temps.lastRead, by simp only [cfgReadDword, h]⟩) run⟩

theorem issueCommand_wrDword (bus dev fn off : Byte) (value : Dword) :
    ∃ t, issueCommand (encode (.wrDword bus dev fn off value)) s = .next t ∧
      Issued s t ⟨0, false, false⟩ (writePair (cfgAddress bus dev fn off) value) due rest := by
  refine issueCommand_served hc hn hserved fun u hu hserved => ?_
  obtain ⟨t, run, answered, kept⟩ := runCommand_cfgWriteDword bus dev fn off value hu hserved
  exact ⟨t, run, answered, kept, lateDue_of_access (r1 := addrWrite bus dev fn off) (r2 := dataWrite value) hu hserved
    (fun u h => by simp [cfgWriteDword, h]) (fun u h => by simp [cfgWriteDword, h])
    (fun u h => ⟨0, by simp only [cfgWriteDword, h]⟩) run⟩

end

/-! ### Commands one after another -/

theorem Issued.ctrl_ne_busy {s t : State} {rsp : Response} {txns : List IoTxn} {due : Nat} {rest : List Pins}
    (h : Issued s t rsp txns due rest) : t.ctrl ≠ .busy := by
  rw [h.ctrl]
  decide

theorem issueCommands_singleton (w : CommandWord) (s : State) : issueCommands [w] s = issueCommand w s := by
  rw [issueCommands]
  cases issueCommand w s <;> rfl

/-- R234: once the read has responded, the master issues the other commands. -/
theorem readModifyWrite_of_read {bus dev fn off : Byte} {merge : Dword → Dword} {between : List CommandWord}
    {s t : State} (hread : issueCommand (encode (.rdDword bus dev fn off)) s = .next t) (hc : t.ctrl = .resp) :
    readModifyWrite bus dev fn off merge between s =
      issueCommands (between ++ [encode (.wrDword bus dev fn off (merge t.rsp.data))]) t := by
  rw [readModifyWrite, hread, andThen_next, if_pos hc]

/-- The first two of the served transactions, and the others. -/
theorem served_pair {due due' : Nat} {ps rest : List Pins} {x v : Dword} {n : Nat} {vs : List Dword}
    (h : served (2 + n) due ps = some (x :: v :: vs, due', rest)) :
    ∃ d qs, served 2 due ps = some ([x, v], d, qs) ∧ served n d qs = some (vs, due', rest) := by
  obtain ⟨xs, ys, d, qs, split, first, later⟩ := served_add h
  match xs, served_length first with
  | [_, _], _ =>
    cases split
    exact ⟨d, qs, first, later⟩

/-- Settles O59: the read's response leaves the block ready for the write, and the edges that serve it. -/
theorem readModifyWriteTakesTwoCommands : Obligations.ReadModifyWriteTakesTwoCommands := by
  intro bus dev fn off merge s x v y z due rest hc hoffer hvalid hserved
  obtain ⟨d, qs, hread, hwrite⟩ := served_pair (n := 2) hserved
  obtain ⟨t, run, read⟩ := issueCommand_rdDword hc ⟨hoffer, hvalid⟩ hread bus dev fn off
  rw [← read.lateDue, ← read.inputs] at hwrite
  obtain ⟨u, run', write⟩ := issueCommand_wrDword read.ctrl_ne_busy read.noOffers hwrite bus dev fn off (merge v)
  refine ⟨u, ?_, write.ctrl, write.rsp, read.enumKept.trans write.enumKept, write.inputs, ?_⟩
  · rw [readModifyWrite_of_read run read.ctrl, read.rsp, List.nil_append, issueCommands_singleton, run']
  · rw [write.history, read.history]

/-! ### Commands in between -/

theorem issueCommands_append (ws vs : List CommandWord) : ∀ s : State,
    issueCommands (ws ++ vs) s = andThen (issueCommands ws s) (issueCommands vs) := by
  induction ws with
  | nil => exact fun _ => rfl
  | cons w ws ih =>
    intro s
    rw [List.cons_append, issueCommands, issueCommands]
    cases issueCommand w s with
    | next t => exact ih t
    | fault | refused => rfl

theorem andThen_eq_next {o : Host.Outcome State Fault Refusal} {k : State → Host.Outcome State Fault Refusal}
    {t : State} (h : andThen o k = .next t) : ∃ u, o = .next u ∧ k u = .next t := by
  cases o with
  | next u => exact ⟨u, rfl, h⟩
  | fault | refused => cases h

/-- No command is offered and no reset comes. -/
structure Undisturbed (s : State) : Prop where
  noOffers : NoOffers s
  noReset : noReset s.inputs

/-- A latched command, legal or not, adds completed transactions and leaves the rest undisturbed. -/
theorem runLatched_undisturbed {s t : State} (h : Undisturbed s) (he : runLatched s = .next t) :
    AddsCompleted s t ∧ Undisturbed t := by
  rcases runLatched_cases s with ⟨i, _, e⟩ | ⟨_, _, e⟩
  · have run := e.symm.trans he
    exact ⟨exec_addsCompleted h.noReset run, h.noOffers.exec run,
      fun p hp => h.noReset p (exec_inputs_subset run hp)⟩
  · cases e.symm.trans he
    exact ⟨.of_responder_eq rfl, ⟨h.noOffers.cmdOffer, h.noOffers.inputs⟩, h.noReset⟩

/-- A command is issued and runs, from a state that accepts it with the same responder; or the block is BUSY. -/
theorem issueCommand_undisturbed {w : CommandWord} {s t : State} (h : Undisturbed s)
    (he : issueCommand w s = .next t) : AddsCompleted s t ∧ Undisturbed t := by
  rcases issueCommand_cases w s h.noOffers.cmdOffer with ⟨_, e⟩ | ⟨_, u, e, _, _, _, _, hresponder, _, hoffer, hin, _⟩
  · cases e.symm.trans he
    exact ⟨.of_responder_eq rfl, h⟩
  · have accepted : Undisturbed u :=
      ⟨⟨hoffer, by rw [hin]; exact h.noOffers.inputs⟩, by rw [hin]; exact h.noReset⟩
    obtain ⟨adds, rest⟩ := runLatched_undisturbed accepted (e.symm.trans he)
    exact ⟨.trans (.of_responder_eq hresponder) adds, rest⟩

theorem issueCommands_undisturbed : ∀ (ws : List CommandWord) {s t : State}, Undisturbed s →
    issueCommands ws s = .next t → AddsCompleted s t ∧ Undisturbed t
  | [], _, _, h, he => by
    cases he
    exact ⟨.of_responder_eq rfl, h⟩
  | w :: ws, _, _, h, he => by
    obtain ⟨u, first, later⟩ := andThen_eq_next he
    obtain ⟨adds, hu⟩ := issueCommand_undisturbed h first
    obtain ⟨adds', ht⟩ := issueCommands_undisturbed ws hu later
    exact ⟨adds.trans adds', ht⟩

/-- A command that was issued and has responded ran from where the block accepted it. -/
theorem issueCommand_resp {i : Instr} {s t : State} (h : NoOffers s) (he : issueCommand (encode i) s = .next t)
    (hc : t.ctrl = .resp) : ∃ u, Fresh u ∧ exec i u = .next t ∧ u.responder = s.responder := by
  rcases issueCommand_cases (encode i) s h.cmdOffer with ⟨hb, e⟩ | ⟨_, u, e, fresh, _, hcmd, _, hresponder, _⟩
  · cases e.symm.trans he
    simp [hb] at hc
  · exact ⟨u, fresh, by rw [← runLatched_encode hcmd, ← e, he], hresponder⟩

/-- R234: a completed read-modify-write, with any commands in between. -/
theorem readModifyWrite_history {bus dev fn off : Byte} {merge : Dword → Dword} {between : List CommandWord}
    {s t : State} (h : Undisturbed s) (he : readModifyWrite bus dev fn off merge between s = .next t)
    (hc : t.ctrl = .resp) :
    ∃ v mid, t.responder.history = s.responder.history ++ readPair (cfgAddress bus dev fn off) v ++ mid ++
      writePair (cfgAddress bus dev fn off) (merge v) ∧ ∀ x ∈ mid, x.completed = true := by
  obtain ⟨r, hread, hrest⟩ := andThen_eq_next he
  split at hrest
  · next hr =>
    rw [issueCommands_append] at hrest
    obtain ⟨m, hbetween, hwrite⟩ := andThen_eq_next hrest
    rw [issueCommands_singleton] at hwrite
    obtain ⟨-, hr'⟩ := issueCommand_undisturbed h hread
    obtain ⟨⟨mid, hmid, completed⟩, hm⟩ := issueCommands_undisturbed between hr' hbetween
    obtain ⟨u, fresh, read, hu⟩ := issueCommand_resp h.noOffers hread hr
    obtain ⟨v, _, reads⟩ := answered_cfgReadDword fresh hr bus dev fn off id read
    obtain ⟨w, fresh', write, hw⟩ := issueCommand_resp hm.noOffers hwrite hc
    obtain ⟨_, writes⟩ := answered_cfgWriteDword fresh' hc bus dev fn off _ write
    refine ⟨v, mid, ?_, completed⟩
    rw [writes.history, hw, hmid, reads.history, hu, reads.rsp]
    rfl
  · next hr =>
    cases hrest
    exact absurd hc hr

/-- Settles O60: each command is accepted as the first was, and the write takes what the read answered. -/
theorem nothingMakesAReadModifyWriteAtomic : Obligations.NothingMakesAReadModifyWriteAtomic := by
  refine ⟨fun t p q ps hc hin hp ready hq hv hoffer => ?accepts,
    fun bus dev fn off merge between s t hoffer hvalid hr he hc =>
      readModifyWrite_history ⟨⟨hoffer, hvalid⟩, hr⟩ he hc,
    fun bus dev fn off bus' dev' fn' off' merge value s x v x' y' y z due rest hc hoffer hvalid hserved => ?stale⟩
  case accepts =>
    have taken : step t = .next (takeResponse p { t with inputs := q :: ps }) := by
      rw [step_resp hc hin, respEdge_taken _ hp ready]
    refine ⟨_, accept q (takeResponse p { t with inputs := ps }), taken, ?_, ⟨rfl, rfl⟩, rfl, ?_, rfl, rfl,
      ⟨rfl, rfl⟩, rfl⟩
    · rw [step_accepts rfl rfl hq hv]
      rfl
    · exact latchedCommand_held hv hoffer
  case stale =>
    obtain ⟨d, qs, hread, hserved⟩ := served_pair (n := 4) hserved
    obtain ⟨d', qs', hother, hwrite⟩ := served_pair (n := 2) hserved
    obtain ⟨t, run, read⟩ := issueCommand_rdDword hc ⟨hoffer, hvalid⟩ hread bus dev fn off
    rw [← read.lateDue, ← read.inputs] at hother
    obtain ⟨m, run', other⟩ := issueCommand_wrDword read.ctrl_ne_busy read.noOffers hother bus' dev' fn' off' value
    rw [← other.lateDue, ← other.inputs] at hwrite
    obtain ⟨u, run'', write⟩ :=
      issueCommand_wrDword other.ctrl_ne_busy other.noOffers hwrite bus dev fn off (merge v)
    refine ⟨u, ?_, write.ctrl, write.rsp, (read.enumKept.trans other.enumKept).trans write.enumKept, write.inputs, ?_⟩
    · rw [readModifyWrite_of_read run read.ctrl, read.rsp, List.singleton_append, issueCommands, run', andThen_next,
        issueCommands_singleton, run'']
    · rw [write.history, other.history, read.history]

end Sys2Proof.Machine
end

section
/-!
PROOFS. O27, the slots that a pass over a stable configuration space probes. A pass is the walk from (0,0,0) by
`nextVisit`; it leaves no device before the one after it, and goes on inside a device by multifunction headers only.
-/

namespace Sys2Proof.Machine

section

variable (cfg : Dword → Dword)

/-- The position that follows `p` in a pass: an advance with the header that `cfg` gives `p`. -/
def nextVisit (p : Position) : Position :=
  advance (multifunction (headerAt cfg p)) p

/-- The slots that a pass visits before it reaches the end sentinel. -/
inductive Visits : Position → Prop
  | first : Visits ⟨0, 0, 0⟩
  | next {p : Position} : Visits p → atSentinel (nextVisit cfg p) = false → Visits (nextVisit cfg p)

variable {cfg}

theorem Visits.slot {p : Position} (h : Visits cfg p) : atSentinel p = false := by
  cases h with
  | first => rfl
  | next _ hslot => exact hslot

/-! ### A pass is that walk -/

/-- The position of round `n` of a pass. -/
abbrev passPosition (cfg : Dword → Dword) (h : Header) (n : Nat) : Position :=
  (passAfter cfg h (n + 1)).1

theorem passPosition_zero (h : Header) : passPosition cfg h 0 = ⟨0, 0, 0⟩ := by
  have start : multifunction { h with vendor := Config.sentinelVendor } = false := by simp [multifunction, present]
  simp only [passPosition, passAfter, enumVisit, start]
  rfl

/-- At a slot a pass holds the header of that slot. -/
theorem passAfter_header (h : Header) (n : Nat) (hslot : atSentinel (passPosition cfg h n) = false) :
    (passAfter cfg h (n + 1)).2 = headerAt cfg (passPosition cfg h n) := by
  have slot : atSentinel (advance (multifunction (passAfter cfg h n).2) (passAfter cfg h n).1) = false := hslot
  simp [passPosition, passAfter, enumVisit, slot]

theorem passPosition_succ (h : Header) (n : Nat) (hslot : atSentinel (passPosition cfg h n) = false) :
    passPosition cfg h (n + 1) = nextVisit cfg (passPosition cfg h n) := by
  rw [nextVisit, ← passAfter_header h n hslot]
  rfl

theorem probed_iff_visits (h : Header) (p : Position) : Probed cfg h p ↔ Visits cfg p := by
  constructor
  · rintro ⟨n, rfl, slots⟩
    induction n with
    | zero => exact (congrArg (Visits cfg) (passPosition_zero h)).mpr .first
    | succ n ih =>
      have before := ih fun k hk => slots k (by omega)
      have next := passPosition_succ h n before.slot
      have hslot : atSentinel (passPosition cfg h (n + 1)) = false := slots (n + 1) le_rfl
      rw [next] at hslot
      exact (congrArg (Visits cfg) next).mpr (before.next hslot)
  · intro visits
    induction visits with
    | first =>
      refine ⟨0, passPosition_zero h, fun k hk => ?_⟩
      obtain rfl : k = 0 := by omega
      exact (congrArg atSentinel (passPosition_zero h)).trans rfl
    | @next p hp hslot ih =>
      obtain ⟨n, rfl, slots⟩ := ih
      have next := passPosition_succ h n (slots n le_rfl)
      refine ⟨n + 1, next, fun k hk => ?_⟩
      rcases Nat.le_succ_iff.mp hk with hk | rfl
      · exact slots k hk
      · exact (congrArg atSentinel next).trans hslot

/-! ### From one device to the next -/

/-- R142: an advance to the next device does not look at the function. -/
theorem advance_false_function (b : BitVec 9) (d : BitVec 5) (f g : BitVec 3) :
    advance false ⟨b, d, f⟩ = advance false ⟨b, d, g⟩ := by
  simp [advance, atSentinel]

/-- R142: after the last function the flag makes no difference. -/
theorem advance_last_function {p : Position} (hslot : atSentinel p = false) (last : p.fn = 7) :
    advance true p = advance false p := by
  by_cases hdev : p.dev = 31
  · rw [advance_bus hslot (.inr last) hdev, advance_bus hslot (.inl rfl) hdev]
  · rw [advance_device hslot (.inr last) hdev, advance_device hslot (.inl rfl) hdev]

/-- R150: after the functions of a device that it visits, a pass visits function 0 of the next device. -/
theorem Visits.next_device {p : Position} (h : Visits cfg p) (hslot : atSentinel (advance false p) = false) :
    Visits cfg (advance false p) := by
  by_cases inside : multifunction (headerAt cfg p) = true ∧ p.fn ≠ 7
  · obtain ⟨hmf, hfn⟩ := inside
    have next : nextVisit cfg p = ⟨p.bus, p.dev, p.fn + 1⟩ := by
      rw [nextVisit, hmf, advance_function h.slot hfn]
    have visited : Visits cfg ⟨p.bus, p.dev, p.fn + 1⟩ := next ▸ h.next (by rw [next]; exact h.slot)
    have same : advance false p = advance false ⟨p.bus, p.dev, p.fn + 1⟩ := advance_false_function _ _ _ _
    have fewer : 7 - (p.fn + 1).toNat < 7 - p.fn.toNat := by bv_omega
    rw [same] at hslot ⊢
    exact visited.next_device hslot
  · have leaves : nextVisit cfg p = advance false p := by
      cases hmf : multifunction (headerAt cfg p) with
      | false => rw [nextVisit, hmf]
      | true =>
        have last : p.fn = 7 := by simpa [hmf] using inside
        rw [nextVisit, hmf, advance_last_function h.slot last]
    rw [← leaves] at hslot ⊢
    exact h.next hslot
termination_by 7 - p.fn.toNat

/-- Function 0 of device `k` in ascending order. -/
def devicePosition (k : Nat) : Position :=
  ⟨BitVec.ofNat 9 (k / 32), BitVec.ofNat 5 (k % 32), 0⟩

theorem advance_devicePosition {k : Nat} (hk : k < 8192) :
    advance false (devicePosition k) = devicePosition (k + 1) := by
  have hslot : atSentinel (devicePosition k) = false := by
    rw [not_atSentinel_iff, devicePosition, BitVec.toNat_ofNat]
    omega
  by_cases hdev : k % 32 = 31
  · rw [advance_bus hslot (.inl rfl) (by simp [devicePosition, hdev])]
    simp only [devicePosition, Position.mk.injEq, and_true]
    have carry : (k + 1) / 32 = k / 32 + 1 := by omega
    have wrap : (k + 1) % 32 = 0 := by omega
    rw [carry, wrap]
    exact ⟨by bv_omega, rfl⟩
  · have dev : (devicePosition k).dev ≠ 31 := by
      simp only [devicePosition]
      bv_omega
    rw [advance_device hslot (.inl rfl) dev]
    simp only [devicePosition, Position.mk.injEq, and_true]
    have same : (k + 1) / 32 = k / 32 := by omega
    have next : (k + 1) % 32 = k % 32 + 1 := by omega
    rw [same, next]
    exact ⟨rfl, by bv_omega⟩

theorem visits_devicePosition : ∀ k : Nat, k < 8192 → Visits cfg (devicePosition k)
  | 0, _ => .first
  | k + 1, hk => by
    have hslot : atSentinel (devicePosition (k + 1)) = false := by
      rw [not_atSentinel_iff, devicePosition, BitVec.toNat_ofNat]
      omega
    rw [← advance_devicePosition (by omega)] at hslot ⊢
    exact (visits_devicePosition k (by omega)).next_device hslot

/-- R150 (a): function 0 of every device. -/
theorem visits_function_zero (b : BitVec 8) (d : BitVec 5) : Visits cfg (slot b d 0) := by
  have hb := b.isLt
  have hd := d.isLt
  have index : slot b d 0 = devicePosition (b.toNat * 32 + d.toNat) := by
    have bus : (b.toNat * 32 + d.toNat) / 32 = b.toNat := by omega
    have dev : (b.toNat * 32 + d.toNat) % 32 = d.toNat := by omega
    rw [devicePosition, bus, dev, slot, Position.mk.injEq]
    exact ⟨by bv_omega, by bv_omega, rfl⟩
  rw [index]
  exact visits_devicePosition _ (by omega)

/-! ### Inside a device -/

/-- R150 (b): the functions before one that is visited are multifunction ones. -/
theorem Visits.functions_before {p : Position} (h : Visits cfg p) :
    ∀ g, g < p.fn → multifunction (headerAt cfg ⟨p.bus, p.dev, g⟩) = true := by
  induction h with
  | first => exact fun g hg => absurd hg (by bv_omega)
  | @next p hp _ ih =>
    rw [nextVisit]
    rcases advance_cases (multifunction (headerAt cfg p)) p with ⟨_, e⟩ | ⟨_, hmf, hfn, e⟩ | ⟨_, _, e⟩ | ⟨_, _, e⟩ <;>
      rw [e]
    case inr.inl =>
      intro g hg
      by_cases last : g = p.fn
      · rw [last]
        exact hmf
      · exact ih g (by bv_omega)
    all_goals exact fun g hg => absurd hg (by bv_omega)

theorem visits_of_functions_before {b : BitVec 8} {d : BitVec 5} : ∀ (n : Nat) (f : BitVec 3), f.toNat = n →
    (∀ g, g < f → multifunction (headerAt cfg (slot b d g)) = true) → Visits cfg (slot b d f)
  | 0, f, hf, _ => by
    obtain rfl : f = 0 := by bv_omega
    exact visits_function_zero b d
  | n + 1, f, hf, before => by
    have visited : Visits cfg (slot b d (f - 1)) :=
      visits_of_functions_before n (f - 1) (by bv_omega) fun g hg => before g (by bv_omega)
    have hmf := before (f - 1) (by bv_omega)
    have next : nextVisit cfg (slot b d (f - 1)) = slot b d f := by
      rw [nextVisit, hmf, advance_function visited.slot (by simp only [slot]; bv_omega)]
      simp [slot]
    rw [← next]
    exact visited.next (by rw [next]; exact visited.slot)

/-! ### The order and the end of a pass -/

/-- R148: a pass goes to a larger key from every slot. -/
theorem passPosition_key_lt (h : Header) {n : Nat} (hslot : atSentinel (passPosition cfg h n) = false) :
    positionKey (passPosition cfg h n) < positionKey (passPosition cfg h (n + 1)) := by
  rw [passPosition_succ h n hslot]
  exact advanceIncreasesThePosition _ _ ((not_atSentinel_iff _).mp hslot)

theorem passPosition_keys (h : Header) {n : Nat} (slots : ∀ k < n, atSentinel (passPosition cfg h k) = false) :
    ∀ {j k : Nat}, j < k → k ≤ n →
      positionKey (passPosition cfg h j) + (k - j) ≤ positionKey (passPosition cfg h k)
  | j, k + 1, hjk, hk => by
    have step := passPosition_key_lt h (slots k (by omega))
    rcases Nat.lt_succ_iff_lt_or_eq.mp hjk with hlt | rfl
    · have before := passPosition_keys h slots hlt (by omega)
      omega
    · omega

theorem positionKey_lt {p : Position} (h : atSentinel p = false) : positionKey p < 65536 := by
  rw [not_atSentinel_iff] at h
  have hdev := p.dev.isLt
  have hfn := p.fn.isLt
  simp only [positionKey]
  omega

/-- R149: a pass reaches the end sentinel after at most 65,536 probes. -/
theorem exists_passPosition_atSentinel (h : Header) :
    ∃ n ≤ 65536, atSentinel (passPosition cfg h n) = true := by
  by_contra never
  have slots (k : Nat) (hk : k ≤ 65536) : atSentinel (passPosition cfg h k) = false := by
    simpa using fun hend => never ⟨k, hk, hend⟩
  have last := passPosition_keys h (n := 65536) (fun k hk => slots k hk.le) (j := 0) (by omega) le_rfl
  have bound := positionKey_lt (slots 65536 le_rfl)
  omega

/-- Up to the first round at the end sentinel, a pass is at slots in ascending order. -/
theorem pass_ascends_to_sentinel (h : Header) {bound : Nat}
    (ends : ∃ n ≤ bound, atSentinel (passPosition cfg h n) = true) :
    ∃ n ≤ bound, atSentinel (passPosition cfg h n) = true ∧
      (∀ k < n, atSentinel (passPosition cfg h k) = false) ∧
      ∀ j k, j < k → k < n → positionKey (passPosition cfg h j) < positionKey (passPosition cfg h k) := by
  have reached : ∃ n, atSentinel (passPosition cfg h n) = true := ends.imp fun _ => And.right
  have slots (k : Nat) (hk : k < Nat.find reached) : atSentinel (passPosition cfg h k) = false := by
    simpa using Nat.find_min reached hk
  obtain ⟨n, hn, hend⟩ := ends
  refine ⟨Nat.find reached, (Nat.find_min' reached hend).trans hn, Nat.find_spec reached, slots, fun j k hjk hk => ?_⟩
  have keys := passPosition_keys h slots hjk hk.le
  omega

end

/-- Settles O27: the walk's slots, and the least round that reaches the end sentinel. -/
theorem passProbesExactlyTheVisibleSlots : Obligations.PassProbesExactlyTheVisibleSlots := by
  intro cfg h
  refine ⟨fun b d => (probed_iff_visits h _).mpr (visits_function_zero b d), fun b d f _ => ?_, ?_⟩
  · rw [probed_iff_visits]
    exact ⟨Visits.functions_before, visits_of_functions_before f.toNat f rfl⟩
  · exact pass_ascends_to_sentinel h (exists_passPosition_atSentinel h)

end Sys2Proof.Machine
end
